-- ==== Sys2Proof/Word.lean ====
section
/-! DEFINITION. The word types of the block: bus words and addresses (00_scope.md R7), and the fixed-length bit
sequences `Bits n` of R9 and R17. A bit sequence is a bit vector whose index 0 is its most significant bit, so `v<i>`
of the spec is `v.getMsbD i` and `int(v)` (R10) is `v.toNat`; a bus word's `w[k]` (R15) is `w.getLsbD k`. -/

namespace Sys2Proof

/-- A 32-bit bus data word (R7, `BUS_WIDTH`). -/
abbrev Word := BitVec 32

/-- A 17-bit byte address of the host register space (R7, `ADDR_WIDTH`). -/
abbrev Addr := BitVec 17

/-- The seed, an unsigned 64-bit integer (R7, `SEED_WIDTH`). -/
abbrev Seed := BitVec 64

/-- `Bits n`, the `n`-bit sequences (R9, R17); index 0 is the most significant position. -/
abbrev Bits (n : Nat) := BitVec n

/-- A plaintext or ciphertext block (R5, `N_BLOCK`). -/
abbrev Block := Bits 128

/-- The 128-bit cipher key (R5, `N_BLOCK`). -/
abbrev CipherKey := Bits 128

/-- One half of the working block (R5, `N_HALF`). -/
abbrev HalfBlock := Bits 64

/-- A round key (R5, `N_RK`). -/
abbrev RoundKey := Bits 88

/-- The reduced key `K100` (R5, `W3`). -/
abbrev ReducedKey := Bits 100

/-- One half of the reduced key (R5, `N_HK`). -/
abbrev HalfKey := Bits 50

end Sys2Proof
end

