-- ==== Sys2Proof/Syntax.lean ====
section
/-! DEFINITION. The instruction set: the six commands of 30_encoding.md R65, one constructor for each row of
spec/opcode_table.json. No command has an operand field (R64); every operand is held in a register (R69). -/

namespace Sys2Proof

/-- The commands of the host command interface (R3, R65). -/
inductive Instr where
  /-- `NOP`, R81. -/
  | nop
  /-- `INIT`, R90. -/
  | init
  /-- `DERIVE`, R98. -/
  | derive
  /-- `ENCRYPT`, R115. -/
  | encrypt
  /-- `DECRYPT`, R116. -/
  | decrypt
  /-- `FEVAL`, R109. -/
  | feval
deriving DecidableEq, Repr

end Sys2Proof
end

