-- ==== Sys2Proof/WellFormed.lean ====
section
/-! DEFINITION. Well-formedness of a command word, field by field (30_encoding.md R64, R67): the must-be-zero field is
zero and the opcode is assigned. A command has no operands, so every term of `Instr` is well formed and the checks
are on words. The checks on a generated table set (41_table_generator.md R84) stand in Machine/Tables.lean. -/

namespace Sys2Proof

/-- `w[31:4] = 0`: the field `MBZ` of format CMD32 is clear (R64). -/
def mbzClear (w : Word) : Bool := w.extractLsb' 4 28 == 0

/-- `w[3:0]` is one of the six assigned opcodes (R65); `6` to `15` are reserved (R67). -/
def opcodeAssigned (w : Word) : Bool := (w.extractLsb' 0 4).toNat ≤ 5

/-- A well-formed command word (R64, R67). -/
def wordWellFormed (w : Word) : Bool := mbzClear w && opcodeAssigned w

end Sys2Proof
end

