-- ==== Sys2Proof/Decode.lean ====
section
/-! DEFINITION. The command decoder, total on every 32-bit word (30_encoding.md R66), and the encoder written from the
same opcode map (R65). -/

namespace Sys2Proof

/-- The decoder's answer (R66): a command, or `Illegal`, which is rejected with code ILLEGAL_CMD. -/
inductive Decoded where
  | command (i : Instr)
  | illegal
deriving DecidableEq, Repr

/-- `decode` of R66: an exact match on all 32 bits; every other word is illegal (R67). -/
def decode (w : Word) : Decoded :=
  if w = 0x00000000#32 then .command .nop
  else if w = 0x00000001#32 then .command .init
  else if w = 0x00000002#32 then .command .derive
  else if w = 0x00000003#32 then .command .encrypt
  else if w = 0x00000004#32 then .command .decrypt
  else if w = 0x00000005#32 then .command .feval
  else .illegal

/-- The command word of a command (R65). -/
def encode : Instr → Word
  | .nop => 0x00000000#32
  | .init => 0x00000001#32
  | .derive => 0x00000002#32
  | .encrypt => 0x00000003#32
  | .decrypt => 0x00000004#32
  | .feval => 0x00000005#32

/-- The command in a word whose bits are given as a number, as spec/opcode_table.json numbers them. A command is
exactly one 32-bit word (R64, R72), so a number with a bit above 31 is no command word. -/
def decodeTableWord (nbits w : Nat) : Option Instr :=
  if w % 2 ^ nbits < 2 ^ 32 then
    match decode (BitVec.ofNat 32 (w % 2 ^ nbits)) with
    | .command i => some i
    | .illegal => none
  else none

end Sys2Proof
end

