-- ==== Sys2Proof/Config.lean ====
section
/-! DEFINITION. What is fixed for a machine and what the spec leaves open: the record of a raw table set
(10_state.md R39), the constant `ID_VALUE`, the open parameter `TableGen` (41_table_generator.md R82) and the draws
(00_scope.md R8). Every `opaque` constant has no body: nothing can be proved about its values. -/

namespace Sys2Proof

/-- `CipherTablesRaw` (R39): a table set with entries of the stated widths and no further condition. -/
structure CipherTablesRaw where
  /-- compression 128 → 116 -/
  ct1 : Vector (BitVec 7) 116
  /-- compression 116 → 108 -/
  ct2 : Vector (BitVec 7) 108
  /-- compression 108 → 100 -/
  ct3 : Vector (BitVec 7) 100
  /-- key-round compression 100 → 88 -/
  ct4 : Vector (BitVec 7) 88
  /-- rotation amount of each round -/
  shift : Vector (BitVec 3) 42
  /-- expansion 64 → 88 -/
  exp : Vector (BitVec 6) 88
  /-- S-box `i`, row `r`, column `c` -/
  sbox : Vector (Vector (Vector (BitVec 8) 32) 64) 8
  /-- first final permutation -/
  p1 : Vector (BitVec 6) 64
  /-- second final permutation -/
  p2 : Vector (BitVec 6) 64
deriving DecidableEq, Repr, Inhabited

/-- `ID_VALUE`, ASCII "FSC1" (R7, R27). -/
def Config.idValue : Word := 0x46534331#32

/-- `TableGen : UInt64 → CipherTablesRaw`, the open parameter of R8 and R82: a function of the seed alone. -/
opaque Config.tableGen : Seed → CipherTablesRaw

/-- Free value: the `n`-th draw of a window read whose data is not valid (R56, R57; assumption 4). -/
opaque Config.drawWord : Nat → Word

/-- Free value: entry `r` of the round-key file after the reset that takes draw `n` (R138, I6; assumption 6). -/
opaque Config.drawRoundKey : Nat → Nat → RoundKey

/-- Free value: working register `L` outside a command (R43, I7; assumption 6). -/
opaque Config.drawLeft : Nat → HalfBlock

/-- Free value: working register `R` outside a command (R43, I7; assumption 6). -/
opaque Config.drawRight : Nat → HalfBlock

/-- Free value: working register `K100` outside a command (R43, I7; assumption 6). -/
opaque Config.drawK100 : Nat → ReducedKey

/-- Free value: the round counter, `0` to `42`, outside a command (R43, I7; assumption 6). -/
opaque Config.drawRound : Nat → Fin 43

end Sys2Proof
end

