-- ==== Sys2Proof/Machine/Bits.lean ====
section
/-! DEFINITION. The operations on bit sequences of 00_scope.md §5: building a sequence from its bits, `gather` (R13),
`rotl` (R14), subsequences (R9), and the packing of a sequence into bus words (20_memory.md R45). -/

namespace Sys2Proof.Bits

/-- `Σ_{i<n} f i · 2^(n−1−i)`: the integer whose binary digits are `f 0, …, f (n−1)`, most significant first (R10). -/
def digits (f : Nat → Bool) : Nat → Nat
  | 0 => 0
  | n + 1 => 2 * digits f n + (f n).toNat

/-- The `n`-bit sequence `f 0, …, f (n−1)`, with `f 0` leftmost (R9). -/
def ofFn (n : Nat) (f : Fin n → Bool) : Bits n :=
  BitVec.ofNat n (digits (fun i => if h : i < n then f ⟨i, h⟩ else false) n)

/-- `v<a .. a+len−1>` (R9). -/
def slice {n : Nat} (v : Bits n) (a len : Nat) : Bits len :=
  ofFn len fun t => v.getMsbD (a + t)

/-- `gather(T, v)`: output position `j` is `v<T[j]>` (R13). Every table of a `CipherTables` has entries below `n`
(R85, R87, R89), as R13 asks. -/
def gather {w m n : Nat} (T : Vector (BitVec w) m) (v : Bits n) : Bits m :=
  ofFn m fun j => v.getMsbD T[j].toNat

/-- `rotl_n(v, s)<j> = v<(j + s) mod n>`: rotation toward index 0, with wrap-around (R14). -/
def rotl {n : Nat} (v : Bits n) (s : Nat) : Bits n :=
  ofFn n fun j => v.getMsbD ((j + s) % n)

/-- Word `Vw` of `v`: bit `31 − t` of it is `v<32w + t>`, and positions beyond the length read 0 (R45). -/
def wordAt {n : Nat} (v : Bits n) (w : Nat) : Word :=
  ofFn 32 fun t => v.getMsbD (32 * w + t)

/-- `v` with its word `w` replaced by `d`; bits of `d` beyond the length of `v` are ignored (R45, R55). -/
def setWordAt {n : Nat} (v : Bits n) (w : Nat) (d : Word) : Bits n :=
  ofFn n fun i => if i.val / 32 = w then d.getMsbD (i.val % 32) else v.getMsbD i

end Sys2Proof.Bits
end

