-- ==== Sys2Proof/Machine/Tables.lean ====
section
/-! DEFINITION. Table sets: the well-formedness predicate `WF` with its named checks (41_table_generator.md R84 to
R89), the type `CipherTables` of table sets that satisfy it (10_state.md R39, R40), and what the documented
construction guarantees (R83). -/

namespace Sys2Proof

namespace CipherTablesRaw

/-- `WF_CTk` of R85 for a compression of input width `win`: entries in range and pairwise distinct. -/
def wfCompression {m : Nat} (win : Nat) (T : Vector (BitVec 7) m) : Bool :=
  T.toList.all (fun x => x.toNat < win) && decide T.toList.Nodup

/-- `WF_SHIFT` of R86: every amount is 1, 2, 3 or 5. -/
def wfShift (T : Vector (BitVec 3) 42) : Bool :=
  T.toList.all fun x => x.toNat == 1 || x.toNat == 2 || x.toNat == 3 || x.toNat == 5

/-- `WF_EXP` of R87: inside each group `11g .. 11g+10` the indices are pairwise distinct. -/
def wfExp (T : Vector (BitVec 6) 88) : Bool :=
  (List.range 8).all fun g => decide ((T.toList.drop (11 * g)).take 11).Nodup

/-- `WF_SBOX` of R88: every 8-bit cell value is legal, so the check always holds. -/
def wfSbox (_ : Vector (Vector (Vector (BitVec 8) 32) 64) 8) : Bool := true

/-- `WF_P` of R89: the 64 entries are pairwise distinct, so the table is a bijection of `0..63`. -/
def wfPermutation (T : Vector (BitVec 6) 64) : Bool := decide T.toList.Nodup

/-- `WF` of R84: all nine named checks. -/
def wf (t : CipherTablesRaw) : Bool :=
  wfCompression 128 t.ct1 && wfCompression 116 t.ct2 && wfCompression 108 t.ct3 && wfCompression 100 t.ct4 &&
    wfShift t.shift && wfExp t.exp && wfSbox t.sbox && wfPermutation t.p1 && wfPermutation t.p2

/-- The identity sequence `0, 1, …, win−1` as 7-bit entries, which a compression table's construction shuffles
(R83 steps 1 to 4). -/
def identitySequence (win : Nat) : List (BitVec 7) := (List.range win).map (BitVec.ofNat 7)

/-- What R83 says of a table set built as the document describes, whatever its pseudo-random source: each compression
table is the head of a shuffle of the identity sequence, each shift amount is drawn from {1, 2, 3, 5}, `EXP` keeps its
groups distinct (R87), `P1` and `P2` are permutation tables, and S-box cells are free. -/
def BuiltAsDocumented (t : CipherTablesRaw) : Prop :=
  (∃ l : List (BitVec 7), l.Perm (identitySequence 128) ∧ t.ct1.toList = l.take 116) ∧
  (∃ l : List (BitVec 7), l.Perm (identitySequence 116) ∧ t.ct2.toList = l.take 108) ∧
  (∃ l : List (BitVec 7), l.Perm (identitySequence 108) ∧ t.ct3.toList = l.take 100) ∧
  (∃ l : List (BitVec 7), l.Perm (identitySequence 100) ∧ t.ct4.toList = l.take 88) ∧
  (∀ r : Fin 42, t.shift[r].toNat ∈ [1, 2, 3, 5]) ∧
  (∀ g : Fin 8, ∀ a b : Fin 88, 11 * g.val ≤ a.val → a.val < b.val → b.val ≤ 11 * g.val + 10 → t.exp[a] ≠ t.exp[b]) ∧
  (∀ x : BitVec 6, x ∈ t.p1.toList) ∧ (∀ x : BitVec 6, x ∈ t.p2.toList)

end CipherTablesRaw

/-- `CipherTables` (R39): a raw table set together with the fact that it satisfies `WF`, so that an ill-formed set
cannot stand in the table memory (R32, R40). -/
structure CipherTables where
  raw : CipherTablesRaw
  legal : raw.wf = true
deriving DecidableEq, Repr

namespace CipherTables

/-- `SHIFT[r]`, the rotation amount itself (R39, R93). -/
def amount (t : CipherTables) (r : Fin 42) : Nat := t.raw.shift[r].toNat

/-- `TabRead(SBOX, i, row, col)`: the cell, whose most significant bit is index 0 of its 8-bit sequence (R103, N12). -/
def cell (t : CipherTables) (i : Fin 8) (row : BitVec 6) (col : BitVec 5) : Bits 8 :=
  t.raw.sbox[i][row.toFin][col.toFin]

end CipherTables

end Sys2Proof
end

