-- ==== Sys2Proof/Machine/State.lean ====
section
/-! DEFINITION. The state of the block as plain data (10_state.md R19), with the agents' coming events and the answer
to the last bus transaction beside it, the reasons a step can stop, and the state after reset
(70_reset_and_hazards.md R138). -/

namespace Sys2Proof.Machine

/-- Why a step stops with a fault. Both constructors are raised only in states that break R38, R81, or R32 and R40
together, and that no run reaches; a stop there is safe. -/
inductive Fault where
  /-- Raised by the Core's step when `BUSY = 1` and `PEND` names no command with a completion: none, or NOP. Safe:
  R38 (`BUSY = 1 ⇔ PEND ≠ none`) rules out none, and R81 rules out a pending NOP. -/
  | noCompletion
  /-- Raised by the completion of DERIVE, ENCRYPT, DECRYPT or FEVAL when `TM` is `invalid`: `TabRead` is defined only
  while `TABLES_VALID = 1` (R40). Safe: R38 rules the state out
  with `TABLES_VALID = 0`, and R32 and R40 with `TABLES_VALID = 1`. -/
  | noTables
deriving DecidableEq, Repr

/-- Why a step is refused. -/
inductive Refusal where
  /-- Raised by an arm of `exec` for a command without a meaning; no arm raises it in this model. Safe. -/
  | notModelled (mnemonic : String)
deriving DecidableEq, Repr

/-- A host bus transaction (20_memory.md R44) of a given access width in bits; every width but 32 answers BERR (R50). -/
inductive Transaction where
  | read (addr : Addr) (bits : Nat)
  | write (addr : Addr) (bits : Nat) (data : Word)
deriving DecidableEq, Repr

/-- One coming step of an agent (R18, R59, R137). -/
inductive Event where
  /-- the host performs a bus transaction -/
  | bus (t : Transaction)
  /-- the Core is scheduled; it has a step only while `BUSY = 1` (R18) -/
  | core
  /-- a pulse of the reset input `rst_n` (R137) -/
  | resetPin
deriving DecidableEq, Repr

/-- The answer to a bus transaction (R44). A BERR answer carries no data (60_exceptions.md R123). -/
inductive BusResponse where
  | ok
  | data (d : Word)
  | berr
deriving DecidableEq, Repr

/-- The fields of STATUS (10_state.md §4, R30 to R36). Its reserved bits have no storage and read 0. -/
structure Status where
  busy : Bool
  done : Bool
  tablesValid : Bool
  rkValid : Bool
  fatal : Bool
  ovr : Bool
  err : BitVec 4
deriving DecidableEq, Repr

/-- The Core's working registers (R43): the halves, the reduced key and the round counter. Their values outside a
command are unspecified, and no rule reads them. -/
structure WorkRegs where
  left : HalfBlock
  right : HalfBlock
  k100 : ReducedKey
  round : Fin 43
deriving DecidableEq, Repr

/-- The state of the block (R19, R43), and after it three fields of the model's own: how many draws have been taken,
the events to come (oldest first), and the answer to the last bus transaction. -/
structure State where
  /-- SEED (R20) -/
  seed : Seed
  /-- KEY (R21) -/
  key : CipherKey
  /-- DIN (R22) -/
  din : Block
  /-- DOUT (R23) -/
  dout : Block
  /-- FIN (R24) -/
  fin : HalfBlock
  /-- FRK (R24) -/
  frk : RoundKey
  /-- FOUT (R24) -/
  fout : HalfBlock
  /-- CTRL.IRQ_EN (R28) -/
  irqEn : Bool
  /-- STATUS (R30 to R36) -/
  status : Status
  /-- the table memory `TM`; `none` is the mark `invalid` (R40) -/
  tm : Option CipherTables
  /-- the round-key file `RKF` (R41) -/
  rkf : Vector RoundKey 42
  /-- the pending command `PEND` (R43) -/
  pend : Option Instr
  /-- the working registers (R43) -/
  work : WorkRegs
  /-- the model's own: how many draws have been taken (assumption 4) -/
  draws : Nat
  /-- the model's own: the events to come, oldest first (assumption 1) -/
  inputs : List Event
  /-- the model's own: the answer to the last bus transaction (assumption 8) -/
  response : Option BusResponse
deriving DecidableEq, Repr

/-- STATUS after reset: it reads `0x00000000` (R138). -/
def Status.reset : Status :=
  { busy := false, done := false, tablesValid := false, rkValid := false, fatal := false, ovr := false, err := 0 }

/-- The working registers in `State.reset`. The spec leaves them unspecified; zero is a DESIGN CHOICE (assumption 5). -/
def WorkRegs.reset : WorkRegs := { left := 0, right := 0, k100 := 0, round := 0 }

/-- The state right after reset (R138). `RKF` and the working registers are unspecified there, and zero is a DESIGN
CHOICE for them (assumption 5), as are the values of the model's own fields. -/
def State.reset : State :=
  { seed := 0, key := 0, din := 0, dout := 0, fin := 0, frk := 0, fout := 0
    irqEn := false
    status := Status.reset
    tm := none
    rkf := Vector.replicate 42 0
    pend := none
    work := WorkRegs.reset
    draws := 0
    inputs := []
    response := none }

end Sys2Proof.Machine
end

