-- ==== Sys2Proof/Machine/Flags.lean ====
section
/-! DEFINITION. The status bits: the error codes (60_exceptions.md R119), the word a read of STATUS returns
(20_memory.md R54), write-1-to-clear (R55), and the interrupt output (60_exceptions.md R125). -/

namespace Sys2Proof.Machine

/-- How a command ends: the names of the codes of R119. -/
inductive ErrCode where
  | none
  | illegalCmd
  | notInit
  | tablesLocked
  | tableGenFail
  | fatal
  /-- assigned to the document's LengthMismatch and never produced (R120) -/
  | lengthMismatch
deriving DecidableEq, Repr

/-- The 4-bit value of a code (R119). -/
def ErrCode.code : ErrCode → BitVec 4
  | .none => 0
  | .illegalCmd => 1
  | .notInit => 2
  | .tablesLocked => 3
  | .tableGenFail => 4
  | .fatal => 5
  | .lengthMismatch => 6

/-- A status bit at bit position `k` of a word. -/
def bitAt (b : Bool) (k : Nat) : Word := (BitVec.ofBool b).zeroExtend 32 <<< k

/-- What a read of STATUS returns: `BUSY | DONE<<1 | TABLES_VALID<<2 | RK_VALID<<3 | FATAL<<4 | OVR<<5 | ERR<<8`
(R54); the reserved bits read 0 (D10). -/
def Status.toWord (st : Status) : Word :=
  bitAt st.busy 0 ||| bitAt st.done 1 ||| bitAt st.tablesValid 2 ||| bitAt st.rkValid 3 ||| bitAt st.fatal 4 |||
    bitAt st.ovr 5 ||| st.err.zeroExtend 32 <<< 8

/-- A host write to STATUS: bit 1 clears DONE, bit 5 clears OVR, every other bit is ignored (R55, R31, R35). -/
def Status.writeOneToClear (d : Word) (st : Status) : Status :=
  { st with done := st.done && !d.getLsbD 1, ovr := st.ovr && !d.getLsbD 5 }

/-- The interrupt output `irq = STATUS.DONE ∧ CTRL.IRQ_EN` (R125), a function of the state. -/
def State.irq (s : State) : Bool := s.status.done && s.irqEn

/-- The phase `IDLE` of R26. -/
def State.idle (s : State) : Bool := !s.status.busy

/-- The commands whose pending makes the round-key window unreadable: those that write `RKF` (R56). -/
def writesRoundKeys : Instr → Bool
  | .nop => false
  | .init => false
  | .derive => true
  | .encrypt => true
  | .decrypt => true
  | .feval => false

end Sys2Proof.Machine
end

