-- ==== Sys2Proof/Machine/Ops.lean ====
section
/-! DEFINITION. The named operations over the state that the commands and the bus share: the command protocol
(40_command_protocol.md R74 to R81), the raising of an error (R75, R77, 60_exceptions.md R123) and the reset
(70_reset_and_hazards.md R138, R139). -/

namespace Sys2Proof.Machine

/-- The working registers outside a command: unspecified (R43, I7), so free values of draw `n` (assumption 6). -/
def freeWork (n : Nat) : WorkRegs :=
  { left := Config.drawLeft n, right := Config.drawRight n, k100 := Config.drawK100 n, round := Config.drawRound n }

/-- The round-key file after a reset: unspecified (R138, I6), so free values of draw `n` (assumption 6). -/
def freeRoundKeys (n : Nat) : Vector RoundKey 42 := Vector.ofFn fun r => Config.drawRoundKey n r

namespace State

/-- The bus answers the transaction with `r`. -/
def respond (r : BusResponse) (s : State) : State := { s with response := some r }

/-- `raise BusErr(A)`: the transaction answers BERR and changes nothing of the block (R123). -/
def busErr (s : State) : State := s.respond .berr

/-- A write dropped because the block is busy: OVR is set and nothing else changes (R55, R124). -/
def overrun (s : State) : State := { s with status := { s.status with ovr := true } }

/-- `reject(code)`: `raise CmdError(code)` at acceptance (R75, R77). -/
def reject (c : ErrCode) (s : State) : State := { s with status := { s.status with done := true, err := c.code } }

/-- `NopEnd()` (R81). -/
def nopEnd (s : State) : State := { s with status := { s.status with done := true, err := ErrCode.none.code } }

/-- The acceptance of command `i` (R74). -/
def accept (i : Instr) (s : State) : State :=
  { s with status := { s.status with busy := true, done := false, err := ErrCode.none.code }, pend := some i }

/-- `Present(w)` for a word that decodes to `i`: the checks of R74 after decoding, in their order. -/
def present (i : Instr) (s : State) : State :=
  if i = .nop then s.nopEnd
  else if s.status.fatal then s.reject .fatal
  else if i = .init && s.status.tablesValid then s.reject .tablesLocked
  else if i ≠ .init && !s.status.tablesValid then s.reject .notInit
  else s.accept i

/-- The end of `Complete()` once `Exec(PEND)` has returned `c` (R76). The working registers are unspecified outside a
command, so they become free values (R43, assumption 6). -/
def finish (c : ErrCode) (s : State) : State :=
  { s with
    status := { s.status with err := c.code, busy := false, done := true }
    pend := none
    work := freeWork s.draws
    draws := s.draws + 1 }

/-- `Reset()` (R137 to R139): every register at its value of R138, whatever was pending. `RKF` and the working
registers are unspecified after it, so they become free values (assumption 6). The events still to come, the last bus
answer and the count of draws are not the block's and stay (assumption 12). -/
def performReset (s : State) : State :=
  { State.reset with
    rkf := freeRoundKeys s.draws
    work := freeWork s.draws
    draws := s.draws + 1
    inputs := s.inputs
    response := s.response }

end State

/-- `Exec(op)` of R76: the pending command's outputs and the code it returns, or the stop of an unreachable state. -/
abbrev ExecResult := Except Fault (State × ErrCode)

/-- The outputs of a command that reads `TM` (R40): defined only while the table memory holds a table set. -/
def withTables (s : State) (f : CipherTables → State × ErrCode) : ExecResult :=
  match s.tm with
  | some t => .ok (f t)
  | none => .error .noTables

/-- `Complete()` (R76): run `Exec(PEND)`, then store its code and end the command. -/
def complete (run : State → ExecResult) (s : State) : Host.Outcome State Fault Refusal :=
  match run s with
  | .ok (s', c) => .next (s'.finish c)
  | .error f => .fault f

/-- One step of command `op`, at whichever point of its life the block stands (assumption 2). While the block is idle
it is the presentation of `op` (R74); while `op` is pending it is its completion by `run` (R76); while another command
is pending, `op` is a command word written while busy, which is dropped and sets OVR (R79). -/
def commandStep (op : Instr) (run : State → ExecResult) (s : State) : Host.Outcome State Fault Refusal :=
  if s.status.busy then
    if s.pend = some op then complete run s else .next s.overrun
  else .next (s.present op)

end Sys2Proof.Machine
end

