-- ==== Sys2Proof/Machine/KeySchedule.lean ====
section
/-! DEFINITION. The round-key schedule expander (42_key_schedule.md R92 to R95) and the command DERIVE (R98). -/

namespace Sys2Proof.Machine

/-- The reduced key `K100` (R92): three compressions in sequence. -/
def reduceKey (T : CipherTables) (K : CipherKey) : ReducedKey :=
  Bits.gather T.raw.ct3 (Bits.gather T.raw.ct2 (Bits.gather T.raw.ct1 K))

/-- Both halves of the reduced key rotated by `s` and joined in index order (R93, D39). -/
def rotatedHalves (k100 : ReducedKey) (s : Nat) : Bits 100 :=
  let A : HalfKey := Bits.slice k100 0 50
  let B : HalfKey := Bits.slice k100 50 50
  Bits.rotl A s ++ Bits.rotl B s

/-- The round key of round `r` (R93): it rotates the unrotated `K100` by `SHIFT[r]` alone (R95). -/
def roundKey (T : CipherTables) (k100 : ReducedKey) (r : Fin 42) : RoundKey :=
  Bits.gather T.raw.ct4 (rotatedHalves k100 (T.amount r))

/-- `Schedule(K, T)` (R94): 42 round keys in round order, all from the one reduced key. -/
def schedule (K : CipherKey) (T : CipherTables) : Vector RoundKey 42 :=
  let k100 := reduceKey T K
  Vector.ofFn fun r => roundKey T k100 r

/-- The round-key file takes the schedule of KEY, and RK_VALID is set: the first part of DERIVE, ENCRYPT and DECRYPT
(R98, R115, R116). -/
def State.deriveKeys (T : CipherTables) (s : State) : State :=
  { s with rkf := schedule s.key T, status := { s.status with rkValid := true } }

/-- `Exec(DERIVE)` (R98). -/
def runDerive (s : State) : ExecResult := withTables s fun T => (s.deriveKeys T, .none)

/-- DERIVE (R98). -/
def execDerive (s : State) : Host.Outcome State Fault Refusal := commandStep .derive runDerive s

end Sys2Proof.Machine
end

