-- ==== Sys2Proof/Machine/RoundFunction.lean ====
section
/-! DEFINITION. The round function F, stage by stage (43_round_function.md R99 to R106), and the command FEVAL
(R109). -/

namespace Sys2Proof.Machine

/-- Expansion, 64 → 88 (R99). -/
def expand (T : CipherTables) (h : HalfBlock) : Bits 88 := Bits.gather T.raw.exp h

/-- Expansion and key mixing: `m = e ⊕ k` (R99, R100). -/
def mix (T : CipherTables) (h : HalfBlock) (k : RoundKey) : Bits 88 := expand T h ^^^ k

/-- The chunk of lane `i`: `m<11i .. 11i+10>` (R101). -/
def chunk (m : Bits 88) (i : Fin 8) : Bits 11 := Bits.slice m (11 * i) 11

/-- The row of a chunk: its even positions, most significant first (R102). -/
def laneRow (c : Bits 11) : BitVec 6 := Bits.ofFn 6 fun t => c.getMsbD (2 * t)

/-- The column of a chunk: its odd positions, most significant first (R102). -/
def laneCol (c : Bits 11) : BitVec 5 := Bits.ofFn 5 fun t => c.getMsbD (2 * t + 1)

/-- The output of lane `i` (R103). -/
def lane (T : CipherTables) (m : Bits 88) (i : Fin 8) : Bits 8 :=
  T.cell i (laneRow (chunk m i)) (laneCol (chunk m i))

/-- The substitution result: `u<8i .. 8i+7> = s_i` (R104). -/
def substitute (T : CipherTables) (m : Bits 88) : HalfBlock :=
  Bits.ofFn 64 fun j => (lane T m ⟨j.val / 8, by omega⟩).getMsbD (j.val % 8)

/-- The final permutations: `P1` first, then `P2` (R105). -/
def permute (T : CipherTables) (u : HalfBlock) : HalfBlock := Bits.gather T.raw.p2 (Bits.gather T.raw.p1 u)

/-- The round function `F(h, k)` (R106). -/
def roundF (T : CipherTables) (h : HalfBlock) (k : RoundKey) : HalfBlock := permute T (substitute T (mix T h k))

/-- `Exec(FEVAL)` (R109). -/
def runFeval (s : State) : ExecResult := withTables s fun T => ({ s with fout := roundF T s.fin s.frk }, .none)

/-- FEVAL (R109). -/
def execFeval (s : State) : Host.Outcome State Fault Refusal := commandStep .feval runFeval s

end Sys2Proof.Machine
end

