-- ==== Sys2Proof/Machine/FeistelEngine.lean ====
section
/-! DEFINITION. The Feistel engine (44_feistel_engine.md R110 to R114) and the commands ENCRYPT (R115) and DECRYPT
(R116). -/

namespace Sys2Proof.Machine

/-- The two halves of the working block (R110). -/
structure Halves where
  left : HalfBlock
  right : HalfBlock
deriving DecidableEq, Repr

/-- `L <- B<0..63>`, `R <- B<64..127>` (R110). -/
def splitBlock (B : Block) : Halves := { left := Bits.slice B 0 64, right := Bits.slice B 64 64 }

/-- One round: `(L, R)` becomes `(R, F(R, k) ⊕ L)` (R111). -/
def feistelRound (T : CipherTables) (k : RoundKey) (h : Halves) : Halves :=
  { left := h.right, right := roundF T h.right k ^^^ h.left }

/-- The output `R ‖ L`, with no further swap (R112, C1). -/
def joinHalves (h : Halves) : Block := h.right ++ h.left

/-- The rounds of a round-key order, one after another (R113). -/
def runRounds (T : CipherTables) (ks : Vector RoundKey 42) (ord : List (Fin 42)) (h : Halves) : Halves :=
  ord.foldl (fun h n => feistelRound T ks[n] h) h

/-- `Feistel(B, RKF, ord)` (R113). -/
def feistel (T : CipherTables) (B : Block) (ks : Vector RoundKey 42) (ord : List (Fin 42)) : Block :=
  joinHalves (runRounds T ks ord (splitBlock B))

/-- The order `0, 1, …, 41` of encryption (R113). -/
def encryptOrder : List (Fin 42) := List.finRange 42

/-- The order `41, 40, …, 0` of decryption (R113, R116). -/
def decryptOrder : List (Fin 42) := (List.finRange 42).reverse

/-- `Exec(ENCRYPT)` (R115): the schedule is derived afresh from KEY, then DIN is encrypted into DOUT. -/
def runEncrypt (s : State) : ExecResult :=
  withTables s fun T => ({ s.deriveKeys T with dout := feistel T s.din (schedule s.key T) encryptOrder }, .none)

/-- `Exec(DECRYPT)` (R116): as ENCRYPT, with the round keys used in reverse; `RKF` stays in schedule order. -/
def runDecrypt (s : State) : ExecResult :=
  withTables s fun T => ({ s.deriveKeys T with dout := feistel T s.din (schedule s.key T) decryptOrder }, .none)

/-- ENCRYPT (R115). -/
def execEncrypt (s : State) : Host.Outcome State Fault Refusal := commandStep .encrypt runEncrypt s

/-- DECRYPT (R116). -/
def execDecrypt (s : State) : Host.Outcome State Fault Refusal := commandStep .decrypt runDecrypt s

end Sys2Proof.Machine
end

