-- ==== Sys2Proof/Machine/Nop.lean ====
section
/-! DEFINITION. The command NOP (40_command_protocol.md R81). -/

namespace Sys2Proof.Machine

/-- NOP (R81) ends at its presentation, so it has no completion: PEND is never NOP. -/
def runNop (_ : State) : ExecResult := .error .noCompletion

/-- NOP (R81): presented while idle it sets DONE and clears ERR at once, in every state of the block. -/
def execNop (s : State) : Host.Outcome State Fault Refusal := commandStep .nop runNop s

end Sys2Proof.Machine
end

