-- ==== Sys2Proof/Machine/TableGenerator.lean ====
section
/-! DEFINITION. The Table Generator's command INIT (41_table_generator.md R90). The generator itself is the open
parameter `TableGen` (R82, assumption 3). -/

namespace Sys2Proof.Machine

/-- The effect of `Exec(INIT)` once `T` has been generated (R90): a well-formed set is installed, and any other leaves
`TM` invalid and the block FATAL, with code TABLE_GEN_FAIL. -/
def installTables (T : CipherTablesRaw) (s : State) : State × ErrCode :=
  if h : T.wf = true then
    ({ s with tm := some ⟨T, h⟩, status := { s.status with tablesValid := true } }, .none)
  else
    ({ s with tm := none, status := { s.status with fatal := true } }, .tableGenFail)

/-- `Exec(INIT)` (R90). -/
def runInit (s : State) : ExecResult := .ok (installTables (Config.tableGen s.seed) s)

/-- INIT, `Initialize(seed)` (R90). -/
def execInit (s : State) : Host.Outcome State Fault Refusal := commandStep .init runInit s

end Sys2Proof.Machine
end

