-- ==== Sys2Proof/Machine/Dispatch.lean ====
section
/-! DEFINITION. `exec`: one arm for each command of the opcode table (30_encoding.md R65). -/

namespace Sys2Proof.Machine

/-- One step of command `i` in state `s`: its presentation while the block is idle, its completion while it is
pending (40_command_protocol.md R74, R76; assumption 2). -/
def exec (i : Instr) (s : State) : Host.Outcome State Fault Refusal :=
  match i with
  | .nop => Sys2Proof.Machine.execNop s
  | .init => Sys2Proof.Machine.execInit s
  | .derive => Sys2Proof.Machine.execDerive s
  | .encrypt => Sys2Proof.Machine.execEncrypt s
  | .decrypt => Sys2Proof.Machine.execDecrypt s
  | .feval => Sys2Proof.Machine.execFeval s

end Sys2Proof.Machine
end

