-- ==== Sys2Proof/Machine/AddressMap.lean ====
section
/-! DEFINITION. The register map of 20_memory.md R53: the aligned words of the host register space, their byte
offsets, and which of them the host may write (R55). -/

namespace Sys2Proof.Machine

/-- A word of the register map that is not reserved (R53). -/
inductive Reg where
  | id
  | ctrl
  | status
  | cmd
  | seedLo
  | seedHi
  | key (w : Fin 4)
  | din (w : Fin 4)
  | dout (w : Fin 4)
  | fin (w : Fin 2)
  | frk (w : Fin 3)
  | fout (w : Fin 2)
  /-- `RKW[r][w]`, word `w` of round key `r` -/
  | rkw (r : Fin 42) (w : Fin 3)
  | ct1 (j : Fin 116)
  | ct2 (j : Fin 108)
  | ct3 (j : Fin 100)
  | ct4 (j : Fin 88)
  | shift (r : Fin 42)
  | exp (p : Fin 88)
  | p1 (j : Fin 64)
  | p2 (j : Fin 64)
  | sbox (i : Fin 8) (r : Fin 64) (c : Fin 32)
deriving DecidableEq, Repr

/-- The byte offset of a word (R53), as a number. -/
def Reg.offset : Reg → Nat
  | .id => 0x00000
  | .ctrl => 0x00004
  | .status => 0x00008
  | .cmd => 0x0000C
  | .seedLo => 0x00010
  | .seedHi => 0x00014
  | .key w => 0x00020 + 4 * w
  | .din w => 0x00030 + 4 * w
  | .dout w => 0x00040 + 4 * w
  | .fin w => 0x00050 + 4 * w
  | .frk w => 0x00060 + 4 * w
  | .fout w => 0x00070 + 4 * w
  | .rkw r w => 0x00100 + 16 * r + 4 * w
  | .ct1 j => 0x00400 + 4 * j
  | .ct2 j => 0x00600 + 4 * j
  | .ct3 j => 0x00800 + 4 * j
  | .ct4 j => 0x00A00 + 4 * j
  | .shift r => 0x00C00 + 4 * r
  | .exp p => 0x00E00 + 4 * p
  | .p1 j => 0x01000 + 4 * j
  | .p2 j => 0x01200 + 4 * j
  | .sbox i r c => 0x10000 + 4 * (2048 * i + 32 * r + c)

/-- The address of a word. -/
def Reg.addr (r : Reg) : Addr := BitVec.ofNat 17 r.offset

/-- `A[1:0] = 00` (R49). -/
def aligned (a : Addr) : Bool := a.toNat % 4 == 0

/-- The word at byte offset `n` of the register map, for an aligned `n`; `none` is a reserved word (R53). -/
def Reg.atOffset (n : Nat) : Option Reg :=
  if n = 0x00000 then some .id
  else if n = 0x00004 then some .ctrl
  else if n = 0x00008 then some .status
  else if n = 0x0000C then some .cmd
  else if n = 0x00010 then some .seedLo
  else if n = 0x00014 then some .seedHi
  else if h : 0x00020 ≤ n ∧ n < 0x00030 then some (.key ⟨(n - 0x00020) / 4, by omega⟩)
  else if h : 0x00030 ≤ n ∧ n < 0x00040 then some (.din ⟨(n - 0x00030) / 4, by omega⟩)
  else if h : 0x00040 ≤ n ∧ n < 0x00050 then some (.dout ⟨(n - 0x00040) / 4, by omega⟩)
  else if h : 0x00050 ≤ n ∧ n < 0x00058 then some (.fin ⟨(n - 0x00050) / 4, by omega⟩)
  else if h : 0x00060 ≤ n ∧ n < 0x0006C then some (.frk ⟨(n - 0x00060) / 4, by omega⟩)
  else if h : 0x00070 ≤ n ∧ n < 0x00078 then some (.fout ⟨(n - 0x00070) / 4, by omega⟩)
  else if h : (0x00100 ≤ n ∧ n < 0x003A0) ∧ (n - 0x00100) % 16 < 12 then
    some (.rkw ⟨(n - 0x00100) / 16, by omega⟩ ⟨(n - 0x00100) % 16 / 4, by omega⟩)
  else if h : 0x00400 ≤ n ∧ n < 0x005D0 then some (.ct1 ⟨(n - 0x00400) / 4, by omega⟩)
  else if h : 0x00600 ≤ n ∧ n < 0x007B0 then some (.ct2 ⟨(n - 0x00600) / 4, by omega⟩)
  else if h : 0x00800 ≤ n ∧ n < 0x00990 then some (.ct3 ⟨(n - 0x00800) / 4, by omega⟩)
  else if h : 0x00A00 ≤ n ∧ n < 0x00B60 then some (.ct4 ⟨(n - 0x00A00) / 4, by omega⟩)
  else if h : 0x00C00 ≤ n ∧ n < 0x00CA8 then some (.shift ⟨(n - 0x00C00) / 4, by omega⟩)
  else if h : 0x00E00 ≤ n ∧ n < 0x00F60 then some (.exp ⟨(n - 0x00E00) / 4, by omega⟩)
  else if h : 0x01000 ≤ n ∧ n < 0x01100 then some (.p1 ⟨(n - 0x01000) / 4, by omega⟩)
  else if h : 0x01200 ≤ n ∧ n < 0x01300 then some (.p2 ⟨(n - 0x01200) / 4, by omega⟩)
  else if h : 0x10000 ≤ n ∧ n < 0x20000 then
    some (.sbox ⟨(n - 0x10000) / 8192, by omega⟩ ⟨(n - 0x10000) / 128 % 64, by omega⟩
      ⟨(n - 0x10000) / 4 % 32, by omega⟩)
  else none

/-- The word at an aligned address; `none` is a reserved word (R53). -/
def Reg.ofAddr (a : Addr) : Option Reg := Reg.atOffset a.toNat

/-- The words the host may write (R55): not ID, DOUT, FOUT, the round-key window or the table window. -/
def Reg.writable : Reg → Bool
  | .id => false
  | .ctrl => true
  | .status => true
  | .cmd => true
  | .seedLo => true
  | .seedHi => true
  | .key _ => true
  | .din _ => true
  | .dout _ => false
  | .fin _ => true
  | .frk _ => true
  | .fout _ => false
  | .rkw _ _ => false
  | .ct1 _ => false
  | .ct2 _ => false
  | .ct3 _ => false
  | .ct4 _ => false
  | .shift _ => false
  | .exp _ => false
  | .p1 _ => false
  | .p2 _ => false
  | .sbox _ _ _ => false

end Sys2Proof.Machine
end

