-- ==== Sys2Proof/Machine/Operands.lean ====
section
/-! DEFINITION. Register words: what each word of the register map reads as (20_memory.md R54, R56, R57, 30_encoding.md
R70, R71) and what a write of a data word stores (R55), under the packing of R45 and R46. A command's operands are the
registers these words make up (30_encoding.md R69). -/

namespace Sys2Proof.Machine

/-- `seed[31:0]` (R46). -/
def seedLow (x : Seed) : Word := x.extractLsb' 0 32

/-- `seed[63:32]` (R46). -/
def seedHigh (x : Seed) : Word := x.extractLsb' 32 32

/-- `SEED_HI · 2^32 + SEED_LO` (R69). -/
def joinSeed (hi lo : Word) : Seed := hi ++ lo

namespace State

/-- The block is busy with a command that writes the round-key file (R56). -/
def busyWithRoundKeys (s : State) : Bool :=
  s.status.busy &&
    match s.pend with
    | some i => writesRoundKeys i
    | none => false

/-- A table-window word (R57): `zext_32` of the entry while `TABLES_VALID = 1`, and `none`, a draw, otherwise. -/
def tableWord (s : State) {w : Nat} (entry : CipherTablesRaw → BitVec w) : Option Word :=
  match s.tm with
  | some t => if s.status.tablesValid then some ((entry t.raw).zeroExtend 32) else none
  | none => none

/-- A round-key window word (R56): word `w` of `RKF[r]` while it is valid, and `none`, a draw, otherwise. -/
def roundKeyWord (s : State) (r : Fin 42) (w : Nat) : Option Word :=
  if s.status.rkValid && !s.busyWithRoundKeys then some (Bits.wordAt s.rkf[r] w) else none

/-- What a read of a register word returns (R54); `none` stands for a draw. -/
def readReg (s : State) : Reg → Option Word
  | .id => some Config.idValue
  | .ctrl => some ((BitVec.ofBool s.irqEn).zeroExtend 32)
  | .status => some s.status.toWord
  | .cmd => some 0
  | .seedLo => some (seedLow s.seed)
  | .seedHi => some (seedHigh s.seed)
  | .key w => some (Bits.wordAt s.key w)
  | .din w => some (Bits.wordAt s.din w)
  | .dout w => some (Bits.wordAt s.dout w)
  | .fin w => some (Bits.wordAt s.fin w)
  | .frk w => some (Bits.wordAt s.frk w)
  | .fout w => some (Bits.wordAt s.fout w)
  | .rkw r w => s.roundKeyWord r w
  | .ct1 j => s.tableWord fun t => t.ct1[j]
  | .ct2 j => s.tableWord fun t => t.ct2[j]
  | .ct3 j => s.tableWord fun t => t.ct3[j]
  | .ct4 j => s.tableWord fun t => t.ct4[j]
  | .shift r => s.tableWord fun t => t.shift[r]
  | .exp p => s.tableWord fun t => t.exp[p]
  | .p1 j => s.tableWord fun t => t.p1[j]
  | .p2 j => s.tableWord fun t => t.p2[j]
  | .sbox i r c => s.tableWord fun t => t.sbox[i][r][c]

/-- The last case of R55: the data register word at `r` takes the value `d` (R45, R46; `FRK2` ignores `d[7:0]`). The
other words are not data registers the host may write, and storing to one changes nothing. -/
def storeWord (s : State) (r : Reg) (d : Word) : State :=
  match r with
  | .seedLo => { s with seed := joinSeed (seedHigh s.seed) d }
  | .seedHi => { s with seed := joinSeed d (seedLow s.seed) }
  | .key w => { s with key := Bits.setWordAt s.key w d }
  | .din w => { s with din := Bits.setWordAt s.din w d }
  | .fin w => { s with fin := Bits.setWordAt s.fin w d }
  | .frk w => { s with frk := Bits.setWordAt s.frk w d }
  | .id => s
  | .ctrl => s
  | .status => s
  | .cmd => s
  | .dout _ => s
  | .fout _ => s
  | .rkw _ _ => s
  | .ct1 _ => s
  | .ct2 _ => s
  | .ct3 _ => s
  | .ct4 _ => s
  | .shift _ => s
  | .exp _ => s
  | .p1 _ => s
  | .p2 _ => s
  | .sbox _ _ _ => s

end State

end Sys2Proof.Machine
end

