-- ==== Sys2Proof/Machine/Bus.lean ====
section
/-! DEFINITION. The host's two transactions, `BusRead` and `BusWrite` (20_memory.md R44, R54, R55), with the bus errors
of 60_exceptions.md R123 in their order. -/

namespace Sys2Proof.Machine

/-- What an agent's coming step amounts to: a state it leads to without running a command, a command to run in a
state, or a stop. -/
inductive Action where
  | settle (s : State)
  | run (i : Instr) (s : State)
  | stop (f : Fault)
deriving DecidableEq, Repr

/-- The checks of R123, cases 1 to 3: an aligned 32-bit access to a word that is not reserved. -/
def target (a : Addr) (bits : Nat) : Option Reg :=
  if !aligned a then none
  else if bits ≠ 32 then none
  else Reg.ofAddr a

/-- `BusRead(A)` (R54). A read that returns a draw takes the next free value (R56, R57). -/
def busRead (a : Addr) (bits : Nat) (s : State) : State :=
  match target a bits with
  | none => s.busErr
  | some r =>
    match s.readReg r with
    | some d => s.respond (.data d)
    | none => { s.respond (.data (Config.drawWord s.draws)) with draws := s.draws + 1 }

/-- A host write to CTRL (R55, R28, R29): bit 1 resets the block, and otherwise bit 0 is IRQ_EN. -/
def writeCtrl (d : Word) (s : State) : State :=
  if d.getLsbD 1 then s.performReset else { s with irqEn := d.getLsbD 0 }

/-- A command word written while the block is idle (R74): an illegal word is rejected here, and a command is run. -/
def presentWord (w : Word) (s : State) : Action :=
  match decode w with
  | .command i => .run i s
  | .illegal => .settle (s.reject .illegalCmd)

/-- `BusWrite(A, d)` (R55): the first case that matches. -/
def busWrite (a : Addr) (bits : Nat) (d : Word) (s : State) : Action :=
  match target a bits with
  | none => .settle s.busErr
  | some r =>
    if !r.writable then .settle s.busErr
    else if r = .ctrl then .settle (writeCtrl d (s.respond .ok))
    else if r = .status then .settle { s.respond .ok with status := s.status.writeOneToClear d }
    else if s.status.busy then .settle (s.respond .ok).overrun
    else if r = .cmd then presentWord d (s.respond .ok)
    else .settle ((s.respond .ok).storeWord r d)

/-- One bus transaction (R44). -/
def transact (t : Transaction) (s : State) : Action :=
  match t with
  | .read a bits => .settle (busRead a bits s)
  | .write a bits d => busWrite a bits d s

end Sys2Proof.Machine
end

