-- ==== Sys2Proof/Machine/Fetch.lean ====
section
/-! DEFINITION. What comes next. The block has no program counter (10_state.md R26): what runs is decided by the agents'
events (R18) and by the phase. `fetch` takes the oldest coming event and says what it amounts to. -/

namespace Sys2Proof.Machine

/-- The Core is scheduled (R76): it completes `PEND` while `BUSY = 1`, and has no step otherwise. -/
def coreAction (s : State) : Action :=
  if s.status.busy then
    match s.pend with
    | some i => .run i s
    | none => .stop .noCompletion
  else .settle s

/-- The next step of the machine. With no event left, the Core completes what is pending (weak fairness, R78), and an
idle block does nothing (R136). -/
def fetch (s : State) : Action :=
  match s.inputs with
  | [] => coreAction s
  | .core :: rest => coreAction { s with inputs := rest }
  | .bus t :: rest => transact t { s with inputs := rest }
  | .resetPin :: rest => .settle (State.performReset { s with inputs := rest })

/-- The event by which the host writes a command word, given as a number, to CMD (R55, R64). -/
def commandEvent (nbits w : Nat) : Event :=
  .bus (.write Reg.cmd.addr 32 (BitVec.ofNat 32 (w % 2 ^ nbits)))

end Sys2Proof.Machine
end

