-- ==== Sys2Proof/Machine/Step.lean ====
section
/-! DEFINITION. One step of the machine, and the placing of a command word where the next step takes it. -/

namespace Sys2Proof.Machine

/-- One atomic step of the agent that moves next (10_state.md R18, 20_memory.md R59). -/
def step (s : State) : Host.Outcome State Fault Refusal :=
  match fetch s with
  | .settle s' => .next s'
  | .run i s' => exec i s'
  | .stop f => .fault f

/-- The state whose very next event is the host's write of command word `w` to CMD (assumption 13). -/
def State.withFetchWord (s : State) (nbits w : Nat) : State :=
  { s with inputs := commandEvent nbits w :: s.inputs }

end Sys2Proof.Machine
end

