-- ==== Sys2Proof/Machine/HostProgram.lean ====
section
/-! DEFINITION. The host-program notation of 30_encoding.md R73: base statements, pseudo-instructions with their
expansions, the encoding of a program as bus transactions, and the Host agent that runs one. -/

namespace Sys2Proof.Machine

/-- The base statements (R73). `rd` with no data is `RD a -> *`. -/
inductive Stmt where
  | wr (a : Addr) (d : Word)
  | wre (a : Addr) (d : Word)
  | rd (a : Addr) (d : Option Word)
  | rde (a : Addr)
  | poll (a : Addr) (m d : Word)
deriving DecidableEq, Repr

/-- The bus transaction a statement performs (R73); a read carries no data, and a `POLL` is one read (assumption 16). -/
def Stmt.transaction : Stmt → Transaction
  | .wr a d => .write a 32 d
  | .wre a d => .write a 32 d
  | .rd a _ => .read a 32
  | .rde a => .read a 32
  | .poll a _ _ => .read a 32

/-- The response a statement requires (R73); a `POLL` is met by the read that ends it. -/
def Stmt.met : Stmt → BusResponse → Bool
  | .wr _ _, r => r == .ok
  | .wre _ _, r => r == .berr
  | .rd _ none, .data _ => true
  | .rd _ (some d), .data x => x == d
  | .rd _ _, _ => false
  | .rde _, r => r == .berr
  | .poll _ m d, .data x => x &&& m == d
  | .poll _ _ _, _ => false

/-- A statement that repeats its read on this response (R73). -/
def Stmt.again : Stmt → BusResponse → Bool
  | .poll _ m d, .data x => x &&& m != d
  | _, _ => false

/-- The pseudo-instructions (R73). -/
inductive Pseudo where
  | cmd (i : Instr)
  | wait
  | setSeed (x : Seed)
  | ldKey (v : CipherKey)
  | ldDin (v : Block)
  | ldFin (v : HalfBlock)
  | ldFrk (v : RoundKey)
  | rdDout (v : Block)
  | clrDone
  | clrOvr
  | srst
deriving DecidableEq, Repr

/-- The expansion of a pseudo-instruction (R73). -/
def Pseudo.expand : Pseudo → List Stmt
  | .cmd i => [.wr Reg.cmd.addr (encode i)]
  | .wait => [.poll Reg.status.addr 0x00000003#32 0x00000002#32]
  | .setSeed x => [.wr Reg.seedLo.addr (seedLow x), .wr Reg.seedHi.addr (seedHigh x)]
  | .ldKey v => (List.finRange 4).map fun w => .wr (Reg.key w).addr (Bits.wordAt v w)
  | .ldDin v => (List.finRange 4).map fun w => .wr (Reg.din w).addr (Bits.wordAt v w)
  | .ldFin v => (List.finRange 2).map fun w => .wr (Reg.fin w).addr (Bits.wordAt v w)
  | .ldFrk v => (List.finRange 3).map fun w => .wr (Reg.frk w).addr (Bits.wordAt v w)
  | .rdDout v => (List.finRange 4).map fun w => .rd (Reg.dout w).addr (some (Bits.wordAt v w))
  | .clrDone => [.wr Reg.status.addr 0x00000002#32]
  | .clrOvr => [.wr Reg.status.addr 0x00000020#32]
  | .srst => [.wr Reg.ctrl.addr 0x00000002#32]

/-- The encoding of a program: the transactions its statements expand to, in order (R73). R73 does not say what stands
in the data place of a read: here nothing does, and a `POLL` is one read (DESIGN CHOICE, assumption 16). -/
def programEncoding (p : List Stmt) : List Transaction := p.map Stmt.transaction

/-- The events by which the Host agent runs a program without polling: its transactions, in order (R18, R73). -/
def programEvents (p : List Stmt) : List Event := (programEncoding p).map Event.bus

/-- The Host agent performs one transaction before any other coming event. -/
def hostIssue (t : Transaction) (s : State) : Host.Outcome State Fault Refusal :=
  step { s with inputs := .bus t :: s.inputs }

/-- The Host agent runs a program (R73), in at most `fuel` steps: the state it ends in, or `none` where a statement's
required response does not come. Between two reads of a `POLL` the other agents take one step (R78; assumption 14). -/
def runProgram : Nat → List Stmt → State → Option State
  | 0, [], s => some s
  | 0, _ :: _, _ => none
  | _ + 1, [], s => some s
  | fuel + 1, st :: rest, s =>
    match hostIssue st.transaction s with
    | .next s' =>
      match s'.response with
      | some r =>
        if st.met r then runProgram fuel rest s'
        else if st.again r then
          match step s' with
          | .next s'' => runProgram fuel (st :: rest) s''
          | .fault _ => none
          | .refused _ => none
        else none
      | none => none
    | .fault _ => none
    | .refused _ => none

end Sys2Proof.Machine
end

