-- ==== Sys2Proof/Safety.lean ====
section
/-! DEFINITION. What counts as a safe run: the invariant of the block (10_state.md R38, with what R32, R33, R40, R81 and
60_exceptions.md R119 say of every reachable state), and a run that never stops. -/

namespace Sys2Proof.Machine

/-- The invariant of the block. The first six clauses are R38's in its order, and the rest are those of the rules they
cite. -/
structure State.Inv (s : State) : Prop where
  /-- R38: `RK_VALID = 1 ⇒ TABLES_VALID = 1` -/
  rkNeedsTables : s.status.rkValid = true → s.status.tablesValid = true
  /-- R38: `FATAL = 1 ⇒ TABLES_VALID = 0` -/
  fatalNoTables : s.status.fatal = true → s.status.tablesValid = false
  /-- R38: `BUSY = 1 ⇒ DONE = 0` -/
  busyNotDone : s.status.busy = true → s.status.done = false
  /-- R38: `BUSY = 1 ⇔ PEND ≠ none` -/
  busyIffPending : s.status.busy = true ↔ s.pend ≠ none
  /-- R38: `BUSY = 1 ∧ PEND = INIT ⇒ TABLES_VALID = 0 ∧ FATAL = 0` -/
  initPending : s.pend = some .init → s.status.tablesValid = false ∧ s.status.fatal = false
  /-- R38: `BUSY = 1 ∧ PEND ∈ {DERIVE, ENCRYPT, DECRYPT, FEVAL} ⇒ TABLES_VALID = 1` -/
  tablesPending : ∀ i, s.pend = some i → i ≠ .init → s.status.tablesValid = true
  /-- R81: NOP ends at its presentation, so it is never pending -/
  nopNeverPending : s.pend ≠ some .nop
  /-- R32, R40: the table memory holds a table set exactly while `TABLES_VALID = 1` -/
  tablesHeld : s.status.tablesValid = true ↔ s.tm ≠ none
  /-- R33: while `RK_VALID = 1` the round-key file is the schedule of some key under the tables held -/
  scheduleHeld : s.status.rkValid = true → ∃ K T, s.tm = some T ∧ s.rkf = schedule K T
  /-- R119, R120, I11: `ERR ∈ {0, 1, 2, 3, 4, 5}` -/
  errAssigned : s.status.err.toNat ≤ 5

/-- An event that resets the block (70_reset_and_hazards.md R137): the reset input, or a 32-bit write to CTRL with
bit 1 set. -/
def Event.resets : Event → Bool
  | .resetPin => true
  | .bus (.write a bits d) => target a bits == some .ctrl && d.getLsbD 1
  | .bus (.read _ _) => false
  | .core => false

/-- The next step is a reset. -/
def State.resetsNext (s : State) : Bool := s.inputs.head?.any Event.resets

/-- The next event is a 32-bit write of `d` to register word `r`. -/
def State.nextWrites (s : State) (r : Reg) (d : Word) : Prop :=
  ∃ rest, s.inputs = .bus (.write r.addr 32 d) :: rest

/-- The next event is a 32-bit read of register word `r`. -/
def State.nextReads (s : State) (r : Reg) : Prop := ∃ rest, s.inputs = .bus (.read r.addr 32) :: rest

/-- The Core moves next: by its own event (R18), or because no event is left (assumption 1). -/
def State.coreNext (s : State) : Prop := s.inputs = [] ∨ s.inputs.head? = some .core

/-- The next step is the completion of the pending command `i` (40_command_protocol.md R76). -/
def State.completesNext (s : State) (i : Instr) : Prop := s.coreNext ∧ s.status.busy = true ∧ s.pend = some i

/-- The checks at acceptance that DERIVE, ENCRYPT, DECRYPT and FEVAL share (R98, R109, R115): presented while idle, the
command is rejected with 5 while FATAL is 1, with 2 while TABLES_VALID is 0, and otherwise accepted. -/
def acceptedWithTables (i : Instr) (s : State) : State :=
  if s.status.fatal = true then { s with status := { s.status with done := true, err := 5 } }
  else if s.status.tablesValid = false then { s with status := { s.status with done := true, err := 2 } }
  else { s with status := { s.status with busy := true, done := false, err := 0 }, pend := some i }

/-- The state with its next event taken. -/
def State.popped (s : State) : State := { s with inputs := s.inputs.tail }

/-- The step from `s` goes on: no fault and no refusal. -/
def State.Goes (s : State) : Prop := ∃ s', step s = .next s'

/-- `k` steps lead from `s` to `t`. -/
def StepsTo : Nat → State → State → Prop
  | 0, s, t => s = t
  | k + 1, s, t => ∃ s', step s = .next s' ∧ StepsTo k s' t

/-- `s` begins a safe run of `k` steps: every one of them goes on, in states that keep the invariant. -/
def SafeFor : Nat → State → Prop
  | 0, s => s.Inv
  | k + 1, s => s.Inv ∧ ∃ s', step s = .next s' ∧ SafeFor k s'

end Sys2Proof.Machine
end

