-- ==== Sys2Proof/Certificates/Slice0/Obligations.lean ====
section
/-! DEFINITION. The statements for the provers, in the order of the spec's files. Every statement is about all states
or operands that meet its hypotheses; a value that is free in the model (a draw) is named by its opaque constant, and
no statement rests on what it is. -/

open Sys2Proof Sys2Proof.Machine

/-! ## Encoding and the register map -/

/-- R66, R67: the decoder matches all 32 bits; a word with `w[31:4] ≠ 0` or opcode 6 to 15 is illegal, and writing an
illegal word while idle sets DONE and ERR = 1 and changes nothing else. -/
def Obligations.DecoderIsTotalAndExact : Prop :=
  (∀ w, decode w = .command .nop ↔ w = 0x00000000#32) ∧
  (∀ w, decode w = .command .init ↔ w = 0x00000001#32) ∧
  (∀ w, decode w = .command .derive ↔ w = 0x00000002#32) ∧
  (∀ w, decode w = .command .encrypt ↔ w = 0x00000003#32) ∧
  (∀ w, decode w = .command .decrypt ↔ w = 0x00000004#32) ∧
  (∀ w, decode w = .command .feval ↔ w = 0x00000005#32) ∧
  (∀ w, decode w = .illegal ↔ w.extractLsb' 4 28 ≠ 0 ∨ 6 ≤ (w.extractLsb' 0 4).toNat) ∧
  (∀ s w, s.nextWrites .cmd w → s.status.busy = false → decode w = .illegal →
    step s = .next { s.popped with response := some .ok, status := { s.status with done := true, err := 1 } })

/-- Words of spec/opcode_table.json, and three illegal words of 95_test_vectors.md §6, as the table numbers them. -/
def Obligations.TableWordsDecode : Prop :=
  decodeTableWord 32 0x00000000 = some .nop ∧ decodeTableWord 32 0x00000001 = some .init ∧
  decodeTableWord 32 0x00000003 = some .encrypt ∧ decodeTableWord 32 0x00000005 = some .feval ∧
  decodeTableWord 32 0x00000007 = none ∧ decodeTableWord 32 0x00000011 = none ∧
  decodeTableWord 32 0x80000001 = none

/-- Decode and encode agree on every command and every word (R64 to R66), and every word of the register map stands at
exactly one aligned address of the host register space (R53). -/
def Obligations.CommandsAndAddressesRoundTrip : Prop :=
  (∀ i, decode (encode i) = .command i) ∧
  (∀ w i, decode w = .command i → encode i = w) ∧
  (∀ r : Reg, aligned r.addr = true ∧ Reg.ofAddr r.addr = some r) ∧
  (∀ (a : Addr) (r : Reg), aligned a = true → Reg.ofAddr a = some r → r.addr = a)

/-- R53: every aligned word of the host register space is exactly one word of the map: where each register and window
word stands, which words the host may write, and that the reserved words are exactly the listed ones. -/
def Obligations.AddressMapIsExact : Prop :=
  ((Reg.id).addr.toNat = 0x00000 ∧ (Reg.ctrl).addr.toNat = 0x00004 ∧ (Reg.status).addr.toNat = 0x00008 ∧
    (Reg.cmd).addr.toNat = 0x0000C ∧ (Reg.seedLo).addr.toNat = 0x00010 ∧ (Reg.seedHi).addr.toNat = 0x00014 ∧
    (∀ w : Fin 4, (Reg.key w).addr.toNat = 0x00020 + 4 * w.val ∧ (Reg.din w).addr.toNat = 0x00030 + 4 * w.val ∧
      (Reg.dout w).addr.toNat = 0x00040 + 4 * w.val) ∧
    (∀ w : Fin 2, (Reg.fin w).addr.toNat = 0x00050 + 4 * w.val ∧ (Reg.fout w).addr.toNat = 0x00070 + 4 * w.val) ∧
    (∀ w : Fin 3, (Reg.frk w).addr.toNat = 0x00060 + 4 * w.val) ∧
    (∀ (r : Fin 42) (w : Fin 3), (Reg.rkw r w).addr.toNat = 0x00100 + 16 * r.val + 4 * w.val)) ∧
  ((∀ j : Fin 116, (Reg.ct1 j).addr.toNat = 0x00400 + 4 * j.val) ∧
    (∀ j : Fin 108, (Reg.ct2 j).addr.toNat = 0x00600 + 4 * j.val) ∧
    (∀ j : Fin 100, (Reg.ct3 j).addr.toNat = 0x00800 + 4 * j.val) ∧
    (∀ j : Fin 88, (Reg.ct4 j).addr.toNat = 0x00A00 + 4 * j.val ∧ (Reg.exp j).addr.toNat = 0x00E00 + 4 * j.val) ∧
    (∀ r : Fin 42, (Reg.shift r).addr.toNat = 0x00C00 + 4 * r.val) ∧
    (∀ j : Fin 64, (Reg.p1 j).addr.toNat = 0x01000 + 4 * j.val ∧ (Reg.p2 j).addr.toNat = 0x01200 + 4 * j.val) ∧
    (∀ (i : Fin 8) (r : Fin 64) (c : Fin 32),
      (Reg.sbox i r c).addr.toNat = 0x10000 + 4 * (2048 * i.val + 32 * r.val + c.val))) ∧
  (∀ (a : Addr) (r : Reg), aligned a = true → (Reg.ofAddr a = some r ↔ r.addr = a)) ∧
  (∀ a : Addr, aligned a = true → (Reg.ofAddr a = none ↔
    (0x00018 ≤ a.toNat ∧ a.toNat ≤ 0x0001C) ∨ (0x00058 ≤ a.toNat ∧ a.toNat ≤ 0x0005C) ∨ a.toNat = 0x0006C ∨
    (0x00078 ≤ a.toNat ∧ a.toNat ≤ 0x000FC) ∨ (∃ r : Fin 42, a.toNat = 0x00100 + 16 * r.val + 12) ∨
    (0x003A0 ≤ a.toNat ∧ a.toNat ≤ 0x003FC) ∨ (0x005D0 ≤ a.toNat ∧ a.toNat ≤ 0x005FC) ∨
    (0x007B0 ≤ a.toNat ∧ a.toNat ≤ 0x007FC) ∨ (0x00990 ≤ a.toNat ∧ a.toNat ≤ 0x009FC) ∨
    (0x00B60 ≤ a.toNat ∧ a.toNat ≤ 0x00BFC) ∨ (0x00CA8 ≤ a.toNat ∧ a.toNat ≤ 0x00DFC) ∨
    (0x00F60 ≤ a.toNat ∧ a.toNat ≤ 0x00FFC) ∨ (0x01100 ≤ a.toNat ∧ a.toNat ≤ 0x011FC) ∨
    (0x01300 ≤ a.toNat ∧ a.toNat ≤ 0x0FFFC))) ∧
  (∀ r : Reg, r.writable = true ↔ r = .ctrl ∨ r = .status ∨ r = .cmd ∨ r = .seedLo ∨ r = .seedHi ∨
    (∃ w, r = .key w) ∨ (∃ w, r = .din w) ∨ (∃ w, r = .fin w) ∨ (∃ w, r = .frk w))

/-! ## The step and the agents -/

/-- A host write of a command word to CMD while the block is idle: the step is `exec` of the decoded command, with the
event taken and the bus answering OK. -/
def Obligations.StepRunsPresentedCommand : Prop :=
  ∀ s w i, s.nextWrites .cmd w → s.status.busy = false → decode w = .command i →
    step s = exec i { s.popped with response := some .ok }

/-- The Core, scheduled by its own event or because no event is left (assumption 1): its step is `exec` of the pending command while
`BUSY = 1`, and no step at all otherwise (R18, R76, R136). -/
def Obligations.StepRunsPendingCommand : Prop :=
  ∀ s : State, s.coreNext →
    (∀ i, s.status.busy = true → s.pend = some i → step s = exec i s.popped) ∧
    (s.status.busy = false → step s = .next s.popped)

/-- A command word placed for the next step (assumption 13) is run by it: of an idle block, the step is `exec` of the decoded
command. -/
def Obligations.PlacedWordRunsNext : Prop :=
  ∀ (s : State) (w : Nat) (i : Instr), s.status.busy = false → decodeTableWord 32 w = some i →
    step (s.withFetchWord 32 w) = exec i { s with response := some .ok }

/-! ## Bus transactions -/

/-- R123: a transaction answers BERR and changes no state exactly when it is misaligned, is not 32 bits wide, goes to a
reserved address, or writes ID, DOUT, FOUT, a round-key window word or a table-window word (offsets from 0x00400),
busy or not. -/
def Obligations.BusErrorsAreExactAndSilent : Prop :=
  (∀ s a bits, s.inputs.head? = some (.bus (.read a bits)) →
    ((a.toNat % 4 ≠ 0 ∨ bits ≠ 32 ∨ Reg.ofAddr a = none) → step s = .next { s.popped with response := some .berr }) ∧
    (¬(a.toNat % 4 ≠ 0 ∨ bits ≠ 32 ∨ Reg.ofAddr a = none) →
      ∃ d n, step s = .next { s.popped with response := some (.data d), draws := n })) ∧
  (∀ s a bits d, s.inputs.head? = some (.bus (.write a bits d)) →
    ((a.toNat % 4 ≠ 0 ∨ bits ≠ 32 ∨ Reg.ofAddr a = none ∨
        ∃ r, Reg.ofAddr a = some r ∧ (r = .id ∨ (∃ w, r = .dout w) ∨ (∃ w, r = .fout w) ∨ (∃ q w, r = .rkw q w) ∨
          0x00400 ≤ r.offset)) →
      step s = .next { s.popped with response := some .berr }) ∧
    (¬(a.toNat % 4 ≠ 0 ∨ bits ≠ 32 ∨ Reg.ofAddr a = none ∨
        ∃ r, Reg.ofAddr a = some r ∧ (r = .id ∨ (∃ w, r = .dout w) ∨ (∃ w, r = .fout w) ∨ (∃ q w, r = .rkw q w) ∨
          0x00400 ≤ r.offset)) →
      ∃ s', step s = .next s' ∧ s'.response = some .ok))

/-- R54: what a read of each register word returns, in any phase; a read of a window word returns data as R56 and R57
say, a reserved address answers BERR, and no read changes the block. `Bits.wordAt` is R45's packing. -/
def Obligations.ReadsReturnRegisters : Prop :=
  ∀ s : State,
    (s.nextReads .id → step s = .next { s.popped with response := some (.data 0x46534331#32) }) ∧
    (s.nextReads .ctrl → step s = .next { s.popped with response := some (.data (if s.irqEn then 1 else 0)) }) ∧
    (s.nextReads .cmd → step s = .next { s.popped with response := some (.data 0) }) ∧
    (s.nextReads .status → ∃ d : Word, step s = .next { s.popped with response := some (.data d) } ∧
      d.toNat = s.status.busy.toNat + 2 * s.status.done.toNat + 4 * s.status.tablesValid.toNat +
        8 * s.status.rkValid.toNat + 16 * s.status.fatal.toNat + 32 * s.status.ovr.toNat +
        256 * s.status.err.toNat) ∧
    (s.nextReads .seedLo → step s = .next { s.popped with response := some (.data (s.seed.extractLsb' 0 32)) }) ∧
    (s.nextReads .seedHi → step s = .next { s.popped with response := some (.data (s.seed.extractLsb' 32 32)) }) ∧
    (∀ w, s.nextReads (.key w) → step s = .next { s.popped with response := some (.data (Bits.wordAt s.key w)) }) ∧
    (∀ w, s.nextReads (.din w) → step s = .next { s.popped with response := some (.data (Bits.wordAt s.din w)) }) ∧
    (∀ w, s.nextReads (.dout w) → step s = .next { s.popped with response := some (.data (Bits.wordAt s.dout w)) }) ∧
    (∀ w, s.nextReads (.fin w) → step s = .next { s.popped with response := some (.data (Bits.wordAt s.fin w)) }) ∧
    (∀ w, s.nextReads (.frk w) → step s = .next { s.popped with response := some (.data (Bits.wordAt s.frk w)) }) ∧
    (∀ w, s.nextReads (.fout w) → step s = .next { s.popped with response := some (.data (Bits.wordAt s.fout w)) }) ∧
    (∀ r, s.nextReads r → ∃ d n, step s = .next { s.popped with response := some (.data d), draws := n }) ∧
    (∀ a, s.inputs.head? = some (.bus (.read a 32)) → aligned a = true → Reg.ofAddr a = none →
      step s = .next { s.popped with response := some .berr })

/-- R46: where the seed's halves stand, what they read as, and what an idle write of one stores. -/
def Obligations.SeedRegisterWords : Prop :=
  Reg.seedLo.addr = 0x010#17 ∧ Reg.seedHi.addr = 0x014#17 ∧
  ∀ s : State,
    (s.nextReads .seedLo → ∃ d : Word, step s = .next { s.popped with response := some (.data d) } ∧
      d.toNat = s.seed.toNat % 2 ^ 32) ∧
    (s.nextReads .seedHi → ∃ d : Word, step s = .next { s.popped with response := some (.data d) } ∧
      d.toNat = s.seed.toNat / 2 ^ 32) ∧
    (∀ d, s.nextWrites .seedLo d → s.status.busy = false → ∃ x : Seed,
      step s = .next { s.popped with response := some .ok, seed := x } ∧
      x.toNat = s.seed.toNat / 2 ^ 32 * 2 ^ 32 + d.toNat) ∧
    (∀ d, s.nextWrites .seedHi d → s.status.busy = false → ∃ x : Seed,
      step s = .next { s.popped with response := some .ok, seed := x } ∧
      x.toNat = d.toNat * 2 ^ 32 + s.seed.toNat % 2 ^ 32)

/-- R45: word `w` of a bit sequence, most significant bit first; `int(v)` is the big-endian concatenation of the words;
reserved bits of the last word of an 88-bit value read 0 and ignore writes. -/
def Obligations.WordPackingOfSequences : Prop :=
  (∀ (n : Nat) (v : Bits n) (w t : Nat), t < 32 →
    (Bits.wordAt v w).getLsbD (31 - t) = if 32 * w + t < n then v.getMsbD (32 * w + t) else false) ∧
  (∀ (n : Nat) (v : Bits n) (w i : Nat) (d : Word), i < n →
    (Bits.setWordAt v w d).getMsbD i = if i / 32 = w then d.getLsbD (31 - i % 32) else v.getMsbD i) ∧
  (∀ v : Bits 64, v.toNat = (Bits.wordAt v 0).toNat * 2 ^ 32 + (Bits.wordAt v 1).toNat) ∧
  (∀ v : Bits 128, v.toNat = (Bits.wordAt v 0).toNat * 2 ^ 96 + (Bits.wordAt v 1).toNat * 2 ^ 64 +
    (Bits.wordAt v 2).toNat * 2 ^ 32 + (Bits.wordAt v 3).toNat) ∧
  (∀ v : Bits 88, v.toNat = (Bits.wordAt v 0).toNat * 2 ^ 56 + (Bits.wordAt v 1).toNat * 2 ^ 24 +
    (Bits.wordAt v 2).toNat / 2 ^ 8 ∧ (Bits.wordAt v 2).toNat % 2 ^ 8 = 0)

/-- R47: byte `k` of a 16-byte value is in bits `31 − 8(k mod 4)` down to `24 − 8(k mod 4)` of word `k / 4`. -/
def Obligations.MessageByteOrder : Prop :=
  ∀ (v : Block) (k : Fin 16),
    Bits.slice v (8 * k.val) 8 = (Bits.wordAt v (k.val / 4)).extractLsb' (24 - 8 * (k.val % 4)) 8

/-- R55, the last cases: an idle write of a data word stores it and answers OK, every other register word reads as
before (`FRK2` keeps its reserved byte 0), and nothing else of the block changes. That the working registers keep their
values too is no rule of the spec, which leaves them unspecified outside a command (R43): it is the model's choice
(assumption 6). -/
def Obligations.IdleDataWriteStoresOneWord : Prop :=
  ∀ s r d, s.nextWrites r d → s.status.busy = false →
    (r = .seedLo ∨ r = .seedHi ∨ (∃ w, r = .key w) ∨ (∃ w, r = .din w) ∨ (∃ w, r = .fin w) ∨ (∃ w, r = .frk w)) →
    ∃ s', step s = .next s' ∧ s'.response = some .ok ∧ s'.inputs = s.inputs.tail ∧
      (∀ r', s'.readReg r' =
        if r' = r then some (if r = .frk 2 then d &&& 0xFFFFFF00#32 else d) else s.readReg r') ∧
      s'.dout = s.dout ∧ s'.fout = s.fout ∧ s'.irqEn = s.irqEn ∧ s'.status = s.status ∧ s'.tm = s.tm ∧
      s'.rkf = s.rkf ∧ s'.pend = s.pend ∧ s'.work = s.work ∧ s'.draws = s.draws

/-- R52: two reads of one word with no step between return the same value, unless the read is a draw. -/
def Obligations.RepeatedReadsAgree : Prop :=
  ∀ s s1 r d, s.nextReads r → s.readReg r = some d → step s = .next s1 → s1.nextReads r →
    s1.response = some (.data d) ∧ step s1 = .next s1.popped

/-- R56, R71: a read of the round-key window returns word `w` of `RKF[r]`, most significant bit first, while
`RK_VALID = 1` and no command that writes `RKF` is pending, and a draw otherwise; after a reset it is a draw. -/
def Obligations.RoundKeyWindowReads : Prop :=
  ∀ (s : State) (r : Fin 42) (w : Fin 3),
    (Reg.rkw r w).addr.toNat = 0x00100 + 16 * r.val + 4 * w.val ∧
    (s.nextReads (.rkw r w) →
      (s.status.rkValid = true ∧
          ¬(s.status.busy = true ∧ (s.pend = some .derive ∨ s.pend = some .encrypt ∨ s.pend = some .decrypt)) →
        ∃ d : Word, step s = .next { s.popped with response := some (.data d) } ∧
          (∀ t, t < 32 → d.getLsbD (31 - t) = if 32 * w.val + t < 88 then s.rkf[r].getMsbD (32 * w.val + t) else false) ∧
          (w = 2 → d.toNat % 2 ^ 8 = 0)) ∧
      (¬(s.status.rkValid = true ∧
          ¬(s.status.busy = true ∧ (s.pend = some .derive ∨ s.pend = some .encrypt ∨ s.pend = some .decrypt))) →
        step s = .next
          { s.popped with response := some (.data (Config.drawWord s.draws)), draws := s.draws + 1 })) ∧
    s.performReset.status.rkValid = false ∧ s.performReset.readReg (.rkw r w) = none

/-- R57, R70: a read of a table-window word returns the zero-extended entry while `TABLES_VALID = 1`, and a draw
while it is 0. -/
def Obligations.TableWindowReads : Prop :=
  (∀ (i : Fin 8) (r : Fin 64) (c : Fin 32),
    (Reg.sbox i r c).addr.toNat = 0x10000 + 4 * (2048 * i.val + 32 * r.val + c.val)) ∧
  ∀ (s : State) (r : Reg), 0x00400 ≤ r.offset → s.nextReads r →
    (s.status.tablesValid = false →
      step s = .next { s.popped with response := some (.data (Config.drawWord s.draws)), draws := s.draws + 1 }) ∧
    (∀ T, s.status.tablesValid = true → s.tm = some T →
      ∃ d : Word, step s = .next { s.popped with response := some (.data d) } ∧
        (∀ j, r = .ct1 j → d.toNat = T.raw.ct1[j].toNat) ∧ (∀ j, r = .ct2 j → d.toNat = T.raw.ct2[j].toNat) ∧
        (∀ j, r = .ct3 j → d.toNat = T.raw.ct3[j].toNat) ∧ (∀ j, r = .ct4 j → d.toNat = T.raw.ct4[j].toNat) ∧
        (∀ q, r = .shift q → d.toNat = T.raw.shift[q].toNat) ∧ (∀ p, r = .exp p → d.toNat = T.raw.exp[p].toNat) ∧
        (∀ j, r = .p1 j → d.toNat = T.raw.p1[j].toNat) ∧ (∀ j, r = .p2 j → d.toNat = T.raw.p2[j].toNat) ∧
        (∀ i q c, r = .sbox i q c → d.toNat = T.raw.sbox[i][q][c].toNat))

/-! ## Control and status -/

/-- R28, R29: a write to CTRL with bit 1 clear sets IRQ_EN to bit 0, in any phase, and changes nothing else; with bit 1
set it resets the block, whatever bit 0 is; SRST reads 0. IRQ_EN only gates the interrupt output: two states that differ
in IRQ_EN alone step alike, to states that differ at most in IRQ_EN and in the data of a read of CTRL. -/
def Obligations.ControlRegisterWrites : Prop :=
  (∀ (s : State) (d : Word),
    (s.nextWrites .ctrl d → d.getLsbD 1 = false →
      step s = .next { s.popped with response := some .ok, irqEn := d.getLsbD 0 }) ∧
    (s.nextWrites .ctrl d → d.getLsbD 1 = true →
      step s = .next ({ s.popped with response := some .ok } : State).performReset) ∧
    (∀ x, s.readReg .ctrl = some x → x.getLsbD 1 = false ∧ x.getLsbD 0 = s.irqEn) ∧
    s.irq = (s.status.done && s.irqEn)) ∧
  (∀ (s s' : State) (b : Bool), step s = .next s' →
    (¬ s.nextReads .ctrl → ∃ b', step { s with irqEn := b } = .next { s' with irqEn := b' }) ∧
    (s.nextReads .ctrl → step { s with irqEn := b } =
      .next { s' with irqEn := b, response := some (.data (if b then 1 else 0)) })) ∧
  (∀ (s : State) (b : Bool) (f : Fault), step s = .fault f → step { s with irqEn := b } = .fault f)

/-- R31, R35, R55: a write to STATUS clears DONE by bit 1 and OVR by bit 5, in any phase; its other bits are ignored. -/
def Obligations.StatusWriteClearsDoneAndOvr : Prop :=
  ∀ (s : State) (d : Word), s.nextWrites .status d →
    step s = .next
      { s.popped with
        response := some .ok
        status := { s.status with
          done := if d.getLsbD 1 then false else s.status.done
          ovr := if d.getLsbD 5 then false else s.status.ovr } }

/-- R124: a write to CMD or an operand register while busy answers OK, changes nothing and sets OVR, leaving DONE, ERR
and the interrupt alone; OVR then stays until a STATUS write of bit 5 or a reset. -/
def Obligations.OverrunIsRecordedAndSticky : Prop :=
  (∀ (s : State) (r : Reg) (d : Word), s.nextWrites r d → s.status.busy = true →
    (r = .cmd ∨ r = .seedLo ∨ r = .seedHi ∨ (∃ w, r = .key w) ∨ (∃ w, r = .din w) ∨ (∃ w, r = .fin w) ∨
      (∃ w, r = .frk w)) →
    ∃ s', s' = { s.popped with response := some .ok, status := { s.status with ovr := true } } ∧
      step s = .next s' ∧ s'.irq = s.irq) ∧
  (∀ s s', s.status.ovr = true → step s = .next s' → s.resetsNext = false →
    s'.status.ovr = true ∨ ∃ d : Word, s.nextWrites .status d ∧ d.getLsbD 5 = true)

/-- R30: BUSY rises exactly when a command is accepted and falls exactly at its completion, the Core's step, or at a
reset; after either of those it is 0, and no other step changes it. -/
def Obligations.BusyFromAcceptanceToCompletion : Prop :=
  (∀ s s', step s = .next s' → s.status.busy = false → s'.status.busy = true →
    ∃ w i, s.nextWrites .cmd w ∧ decode w = .command i ∧ i ≠ .nop ∧ s'.pend = some i ∧ s'.status.done = false ∧
      s'.status.err = 0) ∧
  (∀ s w i, s.nextWrites .cmd w → s.status.busy = false → decode w = .command i → i ≠ .nop →
    s.status.fatal = false → (i = .init ↔ s.status.tablesValid = false) →
    ∃ s', step s = .next s' ∧ s'.status.busy = true ∧ s'.pend = some i) ∧
  (∀ s s', step s = .next s' → s.status.busy = true → s'.status.busy = false →
    s.resetsNext = true ∨ (s.coreNext ∧ s'.pend = none ∧ s'.status.done = true)) ∧
  (∀ s s', step s = .next s' → s.resetsNext = true ∨ s.coreNext → s'.status.busy = false)

/-- R32: TABLES_VALID is 1 after a step exactly when it was 1 or the step is the successful completion of INIT, only a
reset clears it, and while it is 1 the table memory holds one well-formed table set that does not change. -/
def Obligations.TablesValidOnlyFromInitToReset : Prop :=
  (∀ s s', step s = .next s' → s.resetsNext = false →
    (s'.status.tablesValid = true ↔
      s.status.tablesValid = true ∨ (s.completesNext .init ∧ (Config.tableGen s.seed).wf = true))) ∧
  (∀ s s', step s = .next s' → s.resetsNext = true → s'.status.tablesValid = false ∧ s'.tm = none) ∧
  (∀ s s', s.Inv → step s = .next s' → s.status.tablesValid = true → s.resetsNext = false →
    s'.tm = s.tm ∧ ∃ T, s.tm = some T ∧ T.raw.wf = true)

/-- R33: RK_VALID is 1 after a step exactly when it was 1 or the step completes DERIVE, ENCRYPT or DECRYPT, only a reset
clears it, and the round-key file holds the schedule of KEY as it stood at the last such completion. -/
def Obligations.RoundKeysValidFromDerivationToReset : Prop :=
  (∀ s s', step s = .next s' → s.resetsNext = false →
    (s'.status.rkValid = true ↔ s.status.rkValid = true ∨
      s.completesNext .derive ∨ s.completesNext .encrypt ∨ s.completesNext .decrypt)) ∧
  (∀ s s', step s = .next s' → s.resetsNext = true → s'.status.rkValid = false) ∧
  (∀ s s', step s = .next s' → (s.completesNext .derive ∨ s.completesNext .encrypt ∨ s.completesNext .decrypt) →
    ∃ T, s.tm = some T ∧ s'.tm = some T ∧ s'.rkf = schedule s.key T) ∧
  (∀ s s', step s = .next s' → s.resetsNext = false →
    ¬(s.completesNext .derive ∨ s.completesNext .encrypt ∨ s.completesNext .decrypt) → s'.rkf = s.rkf)

/-- R34: FATAL is 1 after a step exactly when it was 1 or the step completes an INIT whose generated tables are ill
formed (TABLE_GEN_FAIL), only a reset clears it, and while it is 1 every command but NOP is rejected with code 5. -/
def Obligations.FatalFromFailedInitToReset : Prop :=
  (∀ s s', step s = .next s' → s.resetsNext = false →
    (s'.status.fatal = true ↔
      s.status.fatal = true ∨ (s.completesNext .init ∧ (Config.tableGen s.seed).wf = false))) ∧
  (∀ s s', step s = .next s' → s.resetsNext = true → s'.status.fatal = false) ∧
  (∀ s i, s.status.fatal = true → s.status.busy = false → i ≠ .nop →
    exec i s = .next { s with status := { s.status with done := true, err := 5 } })

/-- R31, R36: DONE and ERR record how the last command ended. A completion and a word written to CMD while idle set
both, a STATUS write of bit 1 clears DONE alone, a reset clears both, and every other step leaves both as they were. -/
def Obligations.DoneAndErrRecordTheOutcome : Prop :=
  ∀ s s', step s = .next s' →
    (s.resetsNext = true → s'.status.done = false ∧ s'.status.err = 0) ∧
    (s.coreNext → s.status.busy = true →
      s'.status.done = true ∧
        s'.status.err = if s.pend = some .init ∧ (Config.tableGen s.seed).wf = false then 4 else 0) ∧
    (∀ w, s.nextWrites .cmd w → s.status.busy = false →
      s'.status.done = !s'.status.busy ∧
        s'.status.err =
          match decode w with
          | .illegal => 1
          | .command i =>
            if i = .nop then 0 else if s.status.fatal = true then 5
            else if i = .init then (if s.status.tablesValid = true then 3 else 0)
            else if s.status.tablesValid = true then 0 else 2) ∧
    (∀ d, s.nextWrites .status d →
      s'.status.done = (s.status.done && !d.getLsbD 1) ∧ s'.status.err = s.status.err) ∧
    (s.resetsNext = false → ¬(s.coreNext ∧ s.status.busy = true) →
      ¬(s.status.busy = false ∧ ∃ w, s.nextWrites .cmd w) → ¬(∃ d, s.nextWrites .status d) →
      s'.status.done = s.status.done ∧ s'.status.err = s.status.err)

/-- R125: `irq = DONE ∧ IRQ_EN`. It is IRQ_EN after a command ends (a completion, or a word written to CMD while idle that
leaves BUSY 0), and setting IRQ_EN while DONE is 1 asserts it at once; it is 0 after each of the four events that drop
it: a STATUS write of bit 1, a CTRL write of 0 to bit 0, an acceptance, and a reset. Nothing else raises or drops it. -/
def Obligations.InterruptRisesAndDrops : Prop :=
  (∀ s : State, s.irq = true ↔ s.status.done = true ∧ s.irqEn = true) ∧
  (∀ s s', step s = .next s' →
    (s.coreNext → s.status.busy = true → s'.irq = s.irqEn) ∧
    (∀ w, s.nextWrites .cmd w → s.status.busy = false → s'.status.busy = false → s'.irq = s.irqEn) ∧
    (∀ d : Word, s.nextWrites .ctrl d → d.getLsbD 1 = false → d.getLsbD 0 = true → s'.irq = s.status.done) ∧
    (∀ d : Word, s.nextWrites .status d → d.getLsbD 1 = true → s'.irq = false) ∧
    (∀ d : Word, s.nextWrites .ctrl d → d.getLsbD 0 = false → s'.irq = false) ∧
    (∀ w, s.nextWrites .cmd w → s.status.busy = false → s'.status.busy = true → s'.irq = false) ∧
    (s.resetsNext = true → s'.irq = false)) ∧
  (∀ s s', step s = .next s' → s.irq = false → s'.irq = true →
    (s.status.busy = true ∧ s'.status.busy = false) ∨ (s.status.busy = false ∧ ∃ w, s.nextWrites .cmd w) ∨
      ∃ d : Word, s.nextWrites .ctrl d ∧ d.getLsbD 0 = true) ∧
  (∀ s s', step s = .next s' → s.irq = true → s'.irq = false →
    (∃ d : Word, s.nextWrites .status d ∧ d.getLsbD 1 = true) ∨
      (∃ d : Word, s.nextWrites .ctrl d ∧ d.getLsbD 0 = false) ∨
      (∃ w, s.nextWrites .cmd w ∧ s'.status.busy = true) ∨ s.resetsNext = true)

/-! ## Command protocol -/

/-- R74, R75: a command word presented while idle, with the checks in their order and each outcome's whole effect; while
busy the word is dropped. -/
def Obligations.PresentationChecksInOrder : Prop :=
  (∀ s w, s.nextWrites .cmd w → s.status.busy = true →
    step s = .next { s.popped with response := some .ok, status := { s.status with ovr := true } }) ∧
  ∀ s w, s.nextWrites .cmd w → s.status.busy = false →
    step s = .next
      (let s0 : State := { s.popped with response := some .ok }
       match decode w with
       | .illegal => { s0 with status := { s0.status with done := true, err := 1 } }
       | .command i =>
         if i = .nop then { s0 with status := { s0.status with done := true, err := 0 } }
         else if s.status.fatal = true then { s0 with status := { s0.status with done := true, err := 5 } }
         else if i = .init ∧ s.status.tablesValid = true then
           { s0 with status := { s0.status with done := true, err := 3 } }
         else if i ≠ .init ∧ s.status.tablesValid = false then
           { s0 with status := { s0.status with done := true, err := 2 } }
         else { s0 with status := { s0.status with busy := true, done := false, err := 0 }, pend := some i })

/-- R81: NOP, written while idle, sets DONE and clears ERR at once whatever FATAL and TABLES_VALID are, and changes
nothing else; written while busy it is dropped; from reset it leaves STATUS = 0x00000002. -/
def Obligations.NopEndsAtOnce : Prop :=
  (∀ w, decode w = .command .nop ↔ w = 0x00000000#32) ∧
  (∀ s : State, s.status.busy = false →
    exec .nop s = .next { s with status := { s.status with done := true, err := 0 } }) ∧
  (∀ s : State, s.nextWrites .cmd 0x00000000#32 → s.status.busy = true →
    step s = .next { s.popped with response := some .ok, status := { s.status with ovr := true } }) ∧
  (∃ t, step (State.reset.withFetchWord 32 0) = .next t ∧ t.status.toWord = 0x00000002#32)

/-- The model's own reading of `exec` (assumption 2): a command other than the pending one, run while the block is
busy, is a command word written while busy, which R79 drops and R124 records in OVR. -/
def Obligations.OtherCommandWhilePendingIsDropped : Prop :=
  ∀ (s : State) (i : Instr), s.status.busy = true → s.pend ≠ some i →
    exec i s = .next { s with status := { s.status with ovr := true } }

/-- The model's own stops (assumption 7): a completion that needs tables while `TM` is invalid, and a completion of NOP. No
state with the invariant is one of these: the first breaks R38 (TABLES_VALID 0) or R32 and R40 (TABLES_VALID 1), the
second R81, by which NOP ends at its presentation and is never pending. -/
def Obligations.UnreachableCompletionsStop : Prop :=
  (∀ (s : State) (i : Instr), s.status.busy = true → s.pend = some i → s.tm = none →
    (i = .derive ∨ i = .encrypt ∨ i = .decrypt ∨ i = .feval) → exec i s = .fault .noTables ∧ ¬ s.Inv) ∧
  (∀ s : State, s.status.busy = true → s.pend = some .nop → exec .nop s = .fault .noCompletion ∧ ¬ s.Inv)

/-- R80: while a command stays pending, no step changes it, the operands it reads, or the outputs of any command. -/
def Obligations.OperandsFixedWhilePending : Prop :=
  ∀ s s', s.status.busy = true → step s = .next s' → s'.status.busy = true →
    s'.pend = s.pend ∧ s'.seed = s.seed ∧ s'.key = s.key ∧ s'.din = s.din ∧ s'.fin = s.fin ∧ s'.frk = s.frk ∧
      s'.tm = s.tm ∧ s'.rkf = s.rkf ∧ s'.dout = s.dout ∧ s'.fout = s.fout

/-- R23, R24, R40, R41: outside a reset, DOUT changes only at the completion of ENCRYPT or DECRYPT, FOUT at FEVAL's,
`TM` at INIT's, and `RKF` at DERIVE's, ENCRYPT's or DECRYPT's. -/
def Obligations.OutputsChangeOnlyAtCompletion : Prop :=
  ∀ s s', step s = .next s' → s.resetsNext = false →
    (s'.dout ≠ s.dout → s.status.busy = true ∧ s'.status.busy = false ∧
      (s.pend = some .encrypt ∨ s.pend = some .decrypt)) ∧
    (s'.fout ≠ s.fout → s.status.busy = true ∧ s'.status.busy = false ∧ s.pend = some .feval) ∧
    (s'.tm ≠ s.tm → s.status.busy = true ∧ s'.status.busy = false ∧ s.pend = some .init) ∧
    (s'.rkf ≠ s.rkf → s.status.busy = true ∧ s'.status.busy = false ∧
      (s.pend = some .derive ∨ s.pend = some .encrypt ∨ s.pend = some .decrypt))

/-- R78: under every schedule without a reset, an accepted command completes within as many steps as there are events
to come, and one more. That the Core moves when no event is left is the model's choice (assumption 1). -/
def Obligations.PendingCommandCompletes : Prop :=
  ∀ s : State, s.Inv → s.status.busy = true → (∀ e ∈ s.inputs, e.resets = false) →
    ∃ k t, k ≤ s.inputs.length + 1 ∧ StepsTo k s t ∧ t.status.busy = false ∧ t.status.done = true ∧ t.pend = none

/-! ## The commands -/

/-- R90: INIT's word, its checks at acceptance in their order, and its completion with its whole effect. The working
registers are unspecified after it (R43). -/
def Obligations.InitChecksAndCompletes : Prop :=
  (∀ w, decode w = .command .init ↔ w = 0x00000001#32) ∧
  (∀ s : State, s.status.busy = false →
    exec .init s = .next
      (if s.status.fatal = true then { s with status := { s.status with done := true, err := 5 } }
      else if s.status.tablesValid = true then { s with status := { s.status with done := true, err := 3 } }
      else { s with status := { s.status with busy := true, done := false, err := 0 }, pend := some .init })) ∧
  (∀ s : State, s.status.busy = true → s.pend = some .init →
    ∃ w n, exec .init s = .next
      (if h : (Config.tableGen s.seed).wf = true then
        { s with
          tm := some ⟨Config.tableGen s.seed, h⟩
          status := { s.status with tablesValid := true, err := 0, busy := false, done := true }
          pend := none, work := w, draws := n }
      else
        { s with
          tm := none
          status := { s.status with fatal := true, err := 4, busy := false, done := true }
          pend := none, work := w, draws := n }))

/-- R98: DERIVE's word, its checks at acceptance, and its completion with its whole effect. The working registers are
unspecified after it (R43). -/
def Obligations.DeriveChecksAndCompletes : Prop :=
  (∀ w, decode w = .command .derive ↔ w = 0x00000002#32) ∧
  (∀ s : State, s.status.busy = false → exec .derive s = .next (acceptedWithTables .derive s)) ∧
  (∀ (s : State) (T : CipherTables), s.status.busy = true → s.pend = some .derive → s.tm = some T →
    ∃ w n, exec .derive s = .next
      { s with
        rkf := schedule s.key T
        status := { s.status with rkValid := true, err := 0, busy := false, done := true }
        pend := none, work := w, draws := n })

/-- R115: ENCRYPT's word, its checks at acceptance, and its completion with its whole effect. The working registers are
unspecified after it (R43). -/
def Obligations.EncryptChecksAndCompletes : Prop :=
  (∀ w, decode w = .command .encrypt ↔ w = 0x00000003#32) ∧
  (∀ s : State, s.status.busy = false → exec .encrypt s = .next (acceptedWithTables .encrypt s)) ∧
  (∀ (s : State) (T : CipherTables), s.status.busy = true → s.pend = some .encrypt → s.tm = some T →
    ∃ w n, exec .encrypt s = .next
      { s with
        rkf := schedule s.key T
        dout := feistel T s.din (schedule s.key T) (List.finRange 42)
        status := { s.status with rkValid := true, err := 0, busy := false, done := true }
        pend := none, work := w, draws := n })

/-- R116: DECRYPT's word, its checks at acceptance, and its completion with its whole effect; `RKF` is in schedule order.
The working registers are unspecified after it (R43). -/
def Obligations.DecryptChecksAndCompletes : Prop :=
  (∀ w, decode w = .command .decrypt ↔ w = 0x00000004#32) ∧
  (∀ s : State, s.status.busy = false → exec .decrypt s = .next (acceptedWithTables .decrypt s)) ∧
  (∀ (s : State) (T : CipherTables), s.status.busy = true → s.pend = some .decrypt → s.tm = some T →
    ∃ w n, exec .decrypt s = .next
      { s with
        rkf := schedule s.key T
        dout := feistel T s.din (schedule s.key T) (List.finRange 42).reverse
        status := { s.status with rkValid := true, err := 0, busy := false, done := true }
        pend := none, work := w, draws := n })

/-- R109: FEVAL's word, its checks at acceptance, and its completion with its whole effect. The working registers are
unspecified after it (R43). -/
def Obligations.FevalChecksAndCompletes : Prop :=
  (∀ w, decode w = .command .feval ↔ w = 0x00000005#32) ∧
  (∀ s : State, s.status.busy = false → exec .feval s = .next (acceptedWithTables .feval s)) ∧
  (∀ (s : State) (T : CipherTables), s.status.busy = true → s.pend = some .feval → s.tm = some T →
    ∃ w n, exec .feval s = .next
      { s with
        fout := roundF T s.fin s.frk
        status := { s.status with err := 0, busy := false, done := true }
        pend := none, work := w, draws := n })

/-- R91: two completed INITs from one SEED leave the same `TM`, whatever else the states hold, and ENCRYPT and
DECRYPT give a DOUT that depends on KEY, DIN and `TM` alone. -/
def Obligations.TablesAndCiphertextDeterministic : Prop :=
  (∀ s1 s2 t1 t2 : State, s1.status.busy = true → s2.status.busy = true → s1.pend = some .init →
    s2.pend = some .init → s1.seed = s2.seed → exec .init s1 = .next t1 → exec .init s2 = .next t2 →
    t1.tm = t2.tm) ∧
  (∀ (i : Instr) (s1 s2 t1 t2 : State), i = .encrypt ∨ i = .decrypt → s1.status.busy = true →
    s2.status.busy = true → s1.pend = some i → s2.pend = some i → s1.key = s2.key → s1.din = s2.din →
    s1.tm = s2.tm → exec i s1 = .next t1 → exec i s2 = .next t2 → t1.dout = t2.dout ∧ t1.rkf = t2.rkf)

/-! ## The table sets -/

/-- R84, R86, R89: `WF` holds exactly when every named check does, R85, R86, R87 and R89 in the spec's quantified form,
and both permutation tables of a table set that satisfies it are bijections of `0..63`. -/
def Obligations.WellFormedIffNamedChecks : Prop :=
  (∀ t : CipherTablesRaw, t.wf = true ↔
    ((∀ j : Fin 116, t.ct1[j].toNat < 128) ∧ (∀ a b : Fin 116, a < b → t.ct1[a] ≠ t.ct1[b])) ∧
    ((∀ j : Fin 108, t.ct2[j].toNat < 116) ∧ (∀ a b : Fin 108, a < b → t.ct2[a] ≠ t.ct2[b])) ∧
    ((∀ j : Fin 100, t.ct3[j].toNat < 108) ∧ (∀ a b : Fin 100, a < b → t.ct3[a] ≠ t.ct3[b])) ∧
    ((∀ j : Fin 88, t.ct4[j].toNat < 100) ∧ (∀ a b : Fin 88, a < b → t.ct4[a] ≠ t.ct4[b])) ∧
    (∀ r : Fin 42, t.shift[r].toNat = 1 ∨ t.shift[r].toNat = 2 ∨ t.shift[r].toNat = 3 ∨ t.shift[r].toNat = 5) ∧
    (∀ (g : Fin 8) (a b : Fin 88), 11 * g.val ≤ a.val → a < b → b.val ≤ 11 * g.val + 10 → t.exp[a] ≠ t.exp[b]) ∧
    (∀ a b : Fin 64, a < b → t.p1[a] ≠ t.p1[b]) ∧ (∀ a b : Fin 64, a < b → t.p2[a] ≠ t.p2[b])) ∧
  (∀ T : CipherTables, Function.Bijective (fun j : Fin 64 => T.raw.p1[j].toFin) ∧
    Function.Bijective (fun j : Fin 64 => T.raw.p2[j].toFin))

/-- R83: a table set built as the document describes is well formed, whatever the pseudo-random source. -/
def Obligations.DocumentedConstructionIsWellFormed : Prop :=
  ∀ t : CipherTablesRaw, t.BuiltAsDocumented → t.wf = true

/-! ## The key schedule -/

/-- R92: bit `j` of the reduced key is `K<CT1[CT2[CT3[j]]]>`, every index in range. -/
def Obligations.ReducedKeyBits : Prop :=
  ∀ (T : CipherTables) (K : CipherKey) (j : Fin 100), ∃ (a : Fin 108) (b : Fin 116),
    T.raw.ct3[j].toNat = a.val ∧ T.raw.ct2[a].toNat = b.val ∧
      (reduceKey T K).getMsbD j = K.getMsbD T.raw.ct1[b].toNat

/-- R93, R94, R95: bit `j` of round key `r` is the bit of `K100` that `CT4[j]` names after each half has been rotated left by
`SHIFT[r]`, and by `SHIFT[r]` alone. -/
def Obligations.RoundKeyBits : Prop :=
  ∀ (T : CipherTables) (K : CipherKey) (r : Fin 42) (j : Fin 88), ∃ i : Fin 100, T.raw.ct4[j].toNat = i.val ∧
    (schedule K T)[r].getMsbD j = (reduceKey T K).getMsbD
      (if i.val < 50 then (i.val + T.raw.shift[r].toNat) % 50 else 50 + (i.val - 50 + T.raw.shift[r].toNat) % 50)

/-- R96: with the other tables and the key fixed, a round key depends on its own shift amount alone, so a schedule
holds at most four distinct round keys, and changing one amount leaves every other round key unchanged. -/
def Obligations.RoundKeyDependsOnOwnShift : Prop :=
  (∀ (T T' : CipherTables) (K : CipherKey) (r q : Fin 42),
    T'.raw = { T.raw with shift := T'.raw.shift } → T.raw.shift[r] = T'.raw.shift[q] →
    (schedule K T)[r] = (schedule K T')[q]) ∧
  (∀ (T : CipherTables) (K : CipherKey), ∃ k1 k2 k3 k5 : RoundKey, ∀ r : Fin 42,
    (schedule K T)[r] = k1 ∨ (schedule K T)[r] = k2 ∨ (schedule K T)[r] = k3 ∨ (schedule K T)[r] = k5)

/-- R97: every round-key bit is a bit of the cipher key, copied by the injective index map
`σ_r(j) = CT1[CT2[CT3[ρ_r(CT4[j])]]]` that the tables fix; the all-zero and the all-one key give all-zero and all-one
round keys, and the schedule is linear. -/
def Obligations.RoundKeyBitsAreKeyBits : Prop :=
  ∀ T : CipherTables,
    (∃ σ : Fin 42 → Fin 88 → Fin 128, (∀ r, Function.Injective (σ r)) ∧
      (∀ (r : Fin 42) (j : Fin 88), ∃ (i c : Fin 100) (b : Fin 108) (a : Fin 116), T.raw.ct4[j].toNat = i.val ∧
        c.val = (if i.val < 50 then (i.val + T.raw.shift[r].toNat) % 50
          else 50 + (i.val - 50 + T.raw.shift[r].toNat) % 50) ∧
        T.raw.ct3[c].toNat = b.val ∧ T.raw.ct2[b].toNat = a.val ∧ (σ r j).val = T.raw.ct1[a].toNat) ∧
      ∀ (K : CipherKey) (r : Fin 42) (j : Fin 88), (schedule K T)[r].getMsbD j = K.getMsbD (σ r j)) ∧
    (∀ r : Fin 42, (schedule 0 T)[r] = 0 ∧ (schedule (BitVec.allOnes 128) T)[r] = BitVec.allOnes 88) ∧
    (∀ (K K' : CipherKey) (r : Fin 42), (schedule (K ^^^ K') T)[r] = (schedule K T)[r] ^^^ (schedule K' T)[r])

/-! ## The round function -/

/-- R99, R100: `e<p> = h<EXP[p]>` and `m = e ⊕ k` position-wise; inside one 11-position group no bit of the half-block
appears twice. -/
def Obligations.ExpansionAndKeyMixing : Prop :=
  ∀ (T : CipherTables) (h : HalfBlock) (k : RoundKey),
    (∀ p : Fin 88, (expand T h).getMsbD p = h.getMsbD T.raw.exp[p].toNat) ∧
    (∀ p : Fin 88, (mix T h k).getMsbD p = ((expand T h).getMsbD p ^^ k.getMsbD p)) ∧
    (∀ (g : Fin 8) (a b : Fin 88), 11 * g.val ≤ a.val → a < b → b.val ≤ 11 * g.val + 10 → T.raw.exp[a] ≠ T.raw.exp[b])

/-- R101, R102: lane `i` takes `m<11i .. 11i+10>`; its row is read from the even positions and its column from the odd
ones, most significant first. -/
def Obligations.LaneRowsAndColumns : Prop :=
  (∀ (m : Bits 88) (i : Fin 8) (t : Fin 11), (chunk m i).getMsbD t = m.getMsbD (11 * i.val + t.val)) ∧
  (∀ c : Bits 11,
    (laneRow c).toNat = 32 * (c.getMsbD 0).toNat + 16 * (c.getMsbD 2).toNat + 8 * (c.getMsbD 4).toNat +
      4 * (c.getMsbD 6).toNat + 2 * (c.getMsbD 8).toNat + (c.getMsbD 10).toNat ∧
    (laneCol c).toNat = 16 * (c.getMsbD 1).toNat + 8 * (c.getMsbD 3).toNat + 4 * (c.getMsbD 5).toNat +
      2 * (c.getMsbD 7).toNat + (c.getMsbD 9).toNat)

/-- R103, R104: byte `i` of the substitution result is the cell of S-box `i` at the lane's row and column, most
significant bit first. -/
def Obligations.SubstitutionByLanes : Prop :=
  ∀ (T : CipherTables) (m : Bits 88) (i : Fin 8) (t : Fin 8),
    (substitute T m).getMsbD (8 * i.val + t.val) =
      (T.raw.sbox[i][(laneRow (chunk m i)).toFin][(laneCol (chunk m i)).toFin]).getLsbD (7 - t.val)

/-- R105: `v<j> = u<P1[j]>`, then `y<j> = v<P2[j]>`, so `y<j> = u<P1[P2[j]]>`. -/
def Obligations.PermutationsInOrder : Prop :=
  ∀ (T : CipherTables) (u : HalfBlock) (j a : Fin 64), T.raw.p2[j].toNat = a.val →
    (permute T u).getMsbD j = u.getMsbD T.raw.p1[a].toNat

/-- R107: F depends on its arguments only through the mixed value, and output bit `j` is bit `P1[P2[j]] mod 8` of lane
`P1[P2[j]] / 8`, so it depends on that lane's 11 bits alone. -/
def Obligations.OutputBitDependsOnOneLane : Prop :=
  (∀ (T : CipherTables) (h h' : HalfBlock) (k k' : RoundKey),
    Bits.gather T.raw.exp h ^^^ k = Bits.gather T.raw.exp h' ^^^ k' → roundF T h k = roundF T h' k') ∧
  (∀ T : CipherTables, roundF T 0 (BitVec.allOnes 88) = roundF T (BitVec.allOnes 64) 0) ∧
  (∀ (T : CipherTables) (h : HalfBlock) (k : RoundKey) (j a : Fin 64) (i : Fin 8), T.raw.p2[j].toNat = a.val →
    T.raw.p1[a].toNat / 8 = i.val →
    (roundF T h k).getMsbD j = (lane T (mix T h k) i).getMsbD (T.raw.p1[a].toNat % 8)) ∧
  (∀ (T : CipherTables) (m m' : Bits 88) (i : Fin 8),
    (∀ t : Fin 11, m.getMsbD (11 * i.val + t.val) = m'.getMsbD (11 * i.val + t.val)) → lane T m i = lane T m' i)

/-! ## The Feistel engine -/

/-- R110 to R113: the halves of the block, 42 rounds that each map `(L, R)` to `(R, F(R, k) ⊕ L)` with the keys in
schedule order for encryption and in reverse for decryption, and the output `R ‖ L`. -/
def Obligations.FeistelRoundsInKeyOrder : Prop :=
  ∀ (T : CipherTables) (B : Block) (ks : Vector RoundKey 42) (ord : Fin 42 → Fin 42),
    (ord = id ∨ ord = Fin.rev) →
    ∃ L R : Nat → HalfBlock,
      (∀ t : Fin 64, (L 0).getMsbD t = B.getMsbD t ∧ (R 0).getMsbD t = B.getMsbD (64 + t.val)) ∧
      (∀ n : Fin 42, L (n.val + 1) = R n.val ∧ R (n.val + 1) = roundF T (R n.val) ks[ord n] ^^^ L n.val) ∧
      (∀ t : Fin 64,
        (feistel T B ks (if ord = id then encryptOrder else decryptOrder)).getMsbD t = (R 42).getMsbD t ∧
        (feistel T B ks (if ord = id then encryptOrder else decryptOrder)).getMsbD (64 + t.val) = (L 42).getMsbD t)

/-- R117: decryption inverts encryption, and both are bijections on blocks, for every key and every table set. At the
command level, ENCRYPT, then DIN loaded with DOUT by the host's own writes, then DECRYPT, gives back the original DIN in
DOUT, from every idle state with tables. -/
def Obligations.DecryptionInvertsEncryption : Prop :=
  (∀ (T : CipherTables) (K : CipherKey),
    (∀ P : Block, feistel T (feistel T P (schedule K T) encryptOrder) (schedule K T) decryptOrder = P) ∧
    Function.Bijective (fun P : Block => feistel T P (schedule K T) encryptOrder) ∧
    Function.Bijective (fun P : Block => feistel T P (schedule K T) decryptOrder)) ∧
  ∀ (s : State) (T : CipherTables), s.status.busy = false → s.status.fatal = false → s.status.tablesValid = true →
    s.tm = some T →
    ∃ t1 t2,
      StepsTo 2 { s with inputs := programEvents (Pseudo.cmd .encrypt).expand ++ [.core] } t1 ∧
      StepsTo 6
        { t1 with inputs := programEvents ((Pseudo.ldDin t1.dout).expand ++ (Pseudo.cmd .decrypt).expand) ++ [.core] }
        t2 ∧
      t1.dout = feistel T s.din (schedule s.key T) encryptOrder ∧ t2.dout = s.din ∧ t2.key = s.key ∧
      t2.status.err = 0 ∧ t2.status.done = true

/-- R118: with a palindromic schedule encryption and decryption are the same function, and encryption is an involution;
a palindromic SHIFT sequence and the all-zero key give one. -/
def Obligations.PalindromicScheduleIsInvolution : Prop :=
  (∀ (T : CipherTables) (ks : Vector RoundKey 42) (B : Block), (∀ r : Fin 42, ks[r] = ks[r.rev]) →
    feistel T B ks encryptOrder = feistel T B ks decryptOrder ∧
    feistel T (feistel T B ks encryptOrder) ks encryptOrder = B) ∧
  (∀ (T : CipherTables) (K : CipherKey), (∀ r : Fin 42, T.raw.shift[r] = T.raw.shift[r.rev]) →
    ∀ r : Fin 42, (schedule K T)[r] = (schedule K T)[r.rev]) ∧
  (∀ (T : CipherTables) (r : Fin 42), (schedule 0 T)[r] = (schedule 0 T)[r.rev])

/-! ## Reset, invariants and safe runs -/

/-- R138: the value of every register after a reset, for `State.reset` and for the reset of any state; the windows read
draws. `RKF` and the working registers are unspecified there and are left out. -/
def Obligations.ResetValues : Prop :=
  ∀ s t : State, t = State.reset ∨ t = s.performReset →
    t.irqEn = false ∧ t.status.busy = false ∧ t.status.done = false ∧ t.status.tablesValid = false ∧
    t.status.rkValid = false ∧ t.status.fatal = false ∧ t.status.ovr = false ∧ t.status.err = 0 ∧
    t.status.toWord = 0x00000000#32 ∧ t.seed = 0 ∧ t.key = 0 ∧ t.din = 0 ∧ t.dout = 0 ∧ t.fin = 0 ∧ t.frk = 0 ∧
    t.fout = 0 ∧ t.tm = none ∧ t.pend = none ∧ t.irq = false ∧ t.readReg .id = some 0x46534331#32 ∧
    t.readReg .ctrl = some 0 ∧ t.readReg .cmd = some 0 ∧
    (∀ r : Reg, (0x00400 ≤ r.offset ∨ ∃ q w, r = .rkw q w) → t.readReg r = none)

/-- R137, R139: both reset sources perform the same reset, in any phase, and a command that was pending is cancelled:
the block's state is that of R138, with `RKF` and the working registers unspecified. What the bus last answered and the
events still to come are not the block's and stay (assumption 12). -/
def Obligations.ResetSourcesAgree : Prop :=
  ∀ s : State,
    (s.inputs.head? = some .resetPin → step s = .next s.popped.performReset) ∧
    (∀ d : Word, s.nextWrites .ctrl d → d.getLsbD 1 = true →
      step s = .next { s.popped.performReset with response := some .ok }) ∧
    ∃ k w n, s.popped.performReset =
      { State.reset with rkf := k, work := w, draws := n, inputs := s.inputs.tail, response := s.response }

/-- R38 and the rules `State.Inv` cites hold right after reset. -/
def Obligations.InvHoldsAtReset : Prop := State.reset.Inv

/-- R38: every step keeps the invariant, from every state that has it. -/
def Obligations.EveryStepKeepsInv : Prop := ∀ s s', s.Inv → step s = .next s' → s'.Inv

/-- No step from a state with the invariant stops: no command and no bus transaction ends in a fault or a refusal. -/
def Obligations.NoStepStopsUnderInv : Prop := ∀ s : State, s.Inv → s.Goes

/-- Under every schedule of host transactions, Core steps and resets, every run from a reset goes on and keeps the
invariant at each step (R38, R59). `RKF` and the working registers, which R138 leaves unspecified, start at any value, so
nothing rests on the zeros of `State.reset` (assumption 5). Past the end of the list of events the run goes on by the
model's choice that the Core then completes what is pending (assumption 1). -/
def Obligations.EveryScheduleRunsSafely : Prop :=
  ∀ (rkf : Vector RoundKey 42) (work : WorkRegs) (draws : Nat) (es : List Event) (k : Nat),
    SafeFor k { State.reset with rkf := rkf, work := work, draws := draws, inputs := es }

/-! ## The host's notation -/

/-- R69, R73: the pseudo-instructions that load an operand, run on an idle block, leave exactly that operand in its
register and nothing else changed. -/
def Obligations.OperandLoadsStoreOperands : Prop :=
  ∀ s : State, s.status.busy = false →
    (∀ v, StepsTo 4 { s with inputs := programEvents (Pseudo.ldKey v).expand }
      { s with inputs := [], response := some .ok, key := v }) ∧
    (∀ v, StepsTo 4 { s with inputs := programEvents (Pseudo.ldDin v).expand }
      { s with inputs := [], response := some .ok, din := v }) ∧
    (∀ v, StepsTo 2 { s with inputs := programEvents (Pseudo.ldFin v).expand }
      { s with inputs := [], response := some .ok, fin := v }) ∧
    (∀ v, StepsTo 3 { s with inputs := programEvents (Pseudo.ldFrk v).expand }
      { s with inputs := [], response := some .ok, frk := v }) ∧
    (∀ x, StepsTo 2 { s with inputs := programEvents (Pseudo.setSeed x).expand }
      { s with inputs := [], response := some .ok, seed := x })
end

