-- ==== Sys2Proof/Laws/Bits.lean ====
section
/-! SUPPORT. What each operation on bit sequences yields, position by position (00_scope.md R9 to R14, 20_memory.md
R45). Proofs about the datapath cite these instead of unfolding the operations. -/

namespace Sys2Proof.Bits

theorem digits_lt (f : Nat → Bool) (n : Nat) : digits f n < 2 ^ n := by
  induction n with
  | zero => simp [digits]
  | succ n ih =>
    have : (f n).toNat ≤ 1 := Bool.toNat_le (f n)
    simp only [digits, Nat.pow_succ]
    omega

/-- Digit `i`, counted from the most significant one, is `f i` (R10). -/
theorem testBit_digits (f : Nat → Bool) (n i : Nat) (h : i < n) : (digits f n).testBit (n - 1 - i) = f i := by
  induction n with
  | zero => omega
  | succ n ih =>
    simp only [digits, Nat.add_sub_cancel]
    rcases Nat.lt_or_ge i n with hlt | hge
    · have e : n - i = (n - 1 - i) + 1 := by omega
      rw [e, Nat.testBit_add_one]
      have : (2 * digits f n + (f n).toNat) / 2 = digits f n := by
        have : (f n).toNat ≤ 1 := Bool.toNat_le (f n)
        omega
      rw [this]
      exact ih hlt
    · have e : i = n := by omega
      subst e
      cases hb : f i <;> simp [Nat.testBit_zero, Nat.add_mod]

/-- Position `i` of a sequence built from its bits. -/
theorem getMsbD_ofFn (n : Nat) (f : Fin n → Bool) (i : Nat) :
    (ofFn n f).getMsbD i = if h : i < n then f ⟨i, h⟩ else false := by
  by_cases h : i < n
  · have hd := testBit_digits (fun i => if h : i < n then f ⟨i, h⟩ else false) n i h
    simp only [ofFn, BitVec.getMsbD, BitVec.getLsbD_ofNat, hd]
    simp [h]
    omega
  · simp [h, BitVec.getMsbD]

/-- Position `i` of a sequence built from its bits, in range. -/
@[simp] theorem getMsbD_ofFn_fin (n : Nat) (f : Fin n → Bool) (i : Fin n) : (ofFn n f).getMsbD i = f i := by
  simp [getMsbD_ofFn]

/-- Two sequences with the same bits are equal (R9). -/
theorem ext {n : Nat} {u v : Bits n} (h : ∀ i : Fin n, u.getMsbD i = v.getMsbD i) : u = v :=
  BitVec.eq_of_getMsbD_eq fun i hi => h ⟨i, hi⟩

theorem ofFn_congr {n : Nat} {f g : Fin n → Bool} (h : ∀ i, f i = g i) : ofFn n f = ofFn n g := by
  rw [funext h]

/-- A sequence is the sequence of its bits. -/
@[simp] theorem ofFn_getMsbD {n : Nat} (v : Bits n) : (ofFn n fun i => v.getMsbD i) = v :=
  ext fun i => by simp

/-- `gather(T, v)<j> = v<T[j]>` (R13). -/
@[simp] theorem getMsbD_gather {w m n : Nat} (T : Vector (BitVec w) m) (v : Bits n) (j : Fin m) :
    (gather T v).getMsbD j = v.getMsbD T[j].toNat := by simp [gather]

/-- `rotl_n(v, s)<j> = v<(j + s) mod n>` (R14). -/
@[simp] theorem getMsbD_rotl {n : Nat} (v : Bits n) (s : Nat) (j : Fin n) :
    (rotl v s).getMsbD j = v.getMsbD ((j + s) % n) := by simp [rotl]

@[simp] theorem getMsbD_slice {n : Nat} (v : Bits n) (a len : Nat) (t : Fin len) :
    (slice v a len).getMsbD t = v.getMsbD (a + t) := by simp [slice]

/-- `Vw[31 − t] = v<32w + t>` (R45), read from the most significant side. -/
@[simp] theorem getMsbD_wordAt {n : Nat} (v : Bits n) (w : Nat) (t : Fin 32) :
    (wordAt v w).getMsbD t = v.getMsbD (32 * w + t) := by simp [wordAt]

theorem getMsbD_setWordAt {n : Nat} (v : Bits n) (w : Nat) (d : Word) (i : Fin n) :
    (setWordAt v w d).getMsbD i = if i.val / 32 = w then d.getMsbD (i.val % 32) else v.getMsbD i := by
  simp [setWordAt]

/-- A gather of a bit-wise XOR is the XOR of the gathers, so every table is linear. -/
theorem gather_xor {w m n : Nat} (T : Vector (BitVec w) m) (u v : Bits n) :
    gather T (u ^^^ v) = gather T u ^^^ gather T v :=
  ext fun j => by simp

end Sys2Proof.Bits

namespace Sys2Proof.Machine

/-- Position `i` of the rotated halves (R93): each half rotates within itself. -/
theorem getMsbD_rotatedHalves (k : ReducedKey) (s : Nat) (i : Nat) (h : i < 100) :
    (rotatedHalves k s).getMsbD i = k.getMsbD (if i < 50 then (i + s) % 50 else 50 + (i - 50 + s) % 50) := by
  simp only [rotatedHalves]
  rw [BitVec.getMsbD_append]
  have hm : ∀ x, x % 50 < 50 := fun x => Nat.mod_lt _ (by omega)
  split
  · next hge =>
    rw [if_neg (by omega)]
    have := Bits.getMsbD_rotl (Bits.slice k 50 50) s ⟨i - 50, by omega⟩
    simp only at this
    rw [this]
    exact Bits.getMsbD_slice k 50 50 ⟨(i - 50 + s) % 50, hm _⟩
  · next hlt =>
    rw [if_pos (by omega)]
    have := Bits.getMsbD_rotl (Bits.slice k 0 50) s ⟨i, by omega⟩
    simp only at this
    rw [this]
    have := Bits.getMsbD_slice k 0 50 ⟨(i + s) % 50, hm _⟩
    simpa using this

/-- Entry `r` of the schedule is the round key of round `r` (R94). -/
@[simp] theorem schedule_getElem (K : CipherKey) (T : CipherTables) (r : Fin 42) :
    (schedule K T)[r] = roundKey T (reduceKey T K) r := by simp [schedule]

/-- Splitting a joined pair of halves gives them back, exchanged (R110, R112). -/
theorem splitBlock_joinHalves (h : Halves) : splitBlock (joinHalves h) = { left := h.right, right := h.left } := by
  have hl : Bits.slice (joinHalves h) 0 64 = h.right := Bits.ext fun i => by
    have := i.isLt
    rw [Bits.getMsbD_slice, joinHalves, BitVec.getMsbD_append, if_neg (by omega)]
    simp
  have hr : Bits.slice (joinHalves h) 64 64 = h.left := Bits.ext fun i => by
    rw [Bits.getMsbD_slice, joinHalves, BitVec.getMsbD_append, if_pos (by omega)]
    simp
  simp [splitBlock, hl, hr]

/-- Joining the halves of a block exchanges them (R110, R112). -/
theorem joinHalves_splitBlock_swap (B : Block) :
    joinHalves { left := (splitBlock B).right, right := (splitBlock B).left } = B := Bits.ext fun i => by
  have hi := i.isLt
  simp only [joinHalves, splitBlock]
  rw [BitVec.getMsbD_append]
  split
  · next hge =>
    have := Bits.getMsbD_slice B 64 64 ⟨i.val - 64, by omega⟩
    simp only at this
    rw [this]
    congr 1
    omega
  · next hlt =>
    have := Bits.getMsbD_slice B 0 64 ⟨i.val, by omega⟩
    simpa using this

end Sys2Proof.Machine
end

