-- ==== Sys2Proof/Laws/State.lean ====
section
/-! SUPPORT. One lemma for each field under each named update of the state, true by `rfl`, so that no proof unfolds a
record update. -/

namespace Sys2Proof.Machine.State

@[simp] theorem respond_seed (r : BusResponse) (s : State) : (s.respond r).seed = s.seed := rfl
@[simp] theorem respond_key (r : BusResponse) (s : State) : (s.respond r).key = s.key := rfl
@[simp] theorem respond_din (r : BusResponse) (s : State) : (s.respond r).din = s.din := rfl
@[simp] theorem respond_dout (r : BusResponse) (s : State) : (s.respond r).dout = s.dout := rfl
@[simp] theorem respond_fin (r : BusResponse) (s : State) : (s.respond r).fin = s.fin := rfl
@[simp] theorem respond_frk (r : BusResponse) (s : State) : (s.respond r).frk = s.frk := rfl
@[simp] theorem respond_fout (r : BusResponse) (s : State) : (s.respond r).fout = s.fout := rfl
@[simp] theorem respond_irqEn (r : BusResponse) (s : State) : (s.respond r).irqEn = s.irqEn := rfl
@[simp] theorem respond_tm (r : BusResponse) (s : State) : (s.respond r).tm = s.tm := rfl
@[simp] theorem respond_rkf (r : BusResponse) (s : State) : (s.respond r).rkf = s.rkf := rfl
@[simp] theorem respond_pend (r : BusResponse) (s : State) : (s.respond r).pend = s.pend := rfl
@[simp] theorem respond_work (r : BusResponse) (s : State) : (s.respond r).work = s.work := rfl
@[simp] theorem respond_draws (r : BusResponse) (s : State) : (s.respond r).draws = s.draws := rfl
@[simp] theorem respond_inputs (r : BusResponse) (s : State) : (s.respond r).inputs = s.inputs := rfl
@[simp] theorem respond_response (r : BusResponse) (s : State) : (s.respond r).response = some r := rfl
@[simp] theorem respond_status_busy (r : BusResponse) (s : State) : (s.respond r).status.busy = s.status.busy := rfl
@[simp] theorem respond_status_done (r : BusResponse) (s : State) : (s.respond r).status.done = s.status.done := rfl
@[simp] theorem respond_status_tablesValid (r : BusResponse) (s : State) : (s.respond r).status.tablesValid = s.status.tablesValid := rfl
@[simp] theorem respond_status_rkValid (r : BusResponse) (s : State) : (s.respond r).status.rkValid = s.status.rkValid := rfl
@[simp] theorem respond_status_fatal (r : BusResponse) (s : State) : (s.respond r).status.fatal = s.status.fatal := rfl
@[simp] theorem respond_status_ovr (r : BusResponse) (s : State) : (s.respond r).status.ovr = s.status.ovr := rfl
@[simp] theorem respond_status_err (r : BusResponse) (s : State) : (s.respond r).status.err = s.status.err := rfl

@[simp] theorem busErr_seed (s : State) : (s.busErr).seed = s.seed := rfl
@[simp] theorem busErr_key (s : State) : (s.busErr).key = s.key := rfl
@[simp] theorem busErr_din (s : State) : (s.busErr).din = s.din := rfl
@[simp] theorem busErr_dout (s : State) : (s.busErr).dout = s.dout := rfl
@[simp] theorem busErr_fin (s : State) : (s.busErr).fin = s.fin := rfl
@[simp] theorem busErr_frk (s : State) : (s.busErr).frk = s.frk := rfl
@[simp] theorem busErr_fout (s : State) : (s.busErr).fout = s.fout := rfl
@[simp] theorem busErr_irqEn (s : State) : (s.busErr).irqEn = s.irqEn := rfl
@[simp] theorem busErr_tm (s : State) : (s.busErr).tm = s.tm := rfl
@[simp] theorem busErr_rkf (s : State) : (s.busErr).rkf = s.rkf := rfl
@[simp] theorem busErr_pend (s : State) : (s.busErr).pend = s.pend := rfl
@[simp] theorem busErr_work (s : State) : (s.busErr).work = s.work := rfl
@[simp] theorem busErr_draws (s : State) : (s.busErr).draws = s.draws := rfl
@[simp] theorem busErr_inputs (s : State) : (s.busErr).inputs = s.inputs := rfl
@[simp] theorem busErr_response (s : State) : (s.busErr).response = some .berr := rfl
@[simp] theorem busErr_status_busy (s : State) : (s.busErr).status.busy = s.status.busy := rfl
@[simp] theorem busErr_status_done (s : State) : (s.busErr).status.done = s.status.done := rfl
@[simp] theorem busErr_status_tablesValid (s : State) : (s.busErr).status.tablesValid = s.status.tablesValid := rfl
@[simp] theorem busErr_status_rkValid (s : State) : (s.busErr).status.rkValid = s.status.rkValid := rfl
@[simp] theorem busErr_status_fatal (s : State) : (s.busErr).status.fatal = s.status.fatal := rfl
@[simp] theorem busErr_status_ovr (s : State) : (s.busErr).status.ovr = s.status.ovr := rfl
@[simp] theorem busErr_status_err (s : State) : (s.busErr).status.err = s.status.err := rfl

@[simp] theorem respond_status (r : BusResponse) (s : State) : (s.respond r).status = s.status := rfl
@[simp] theorem busErr_status (s : State) : s.busErr.status = s.status := rfl

@[simp] theorem overrun_seed (s : State) : (s.overrun).seed = s.seed := rfl
@[simp] theorem overrun_key (s : State) : (s.overrun).key = s.key := rfl
@[simp] theorem overrun_din (s : State) : (s.overrun).din = s.din := rfl
@[simp] theorem overrun_dout (s : State) : (s.overrun).dout = s.dout := rfl
@[simp] theorem overrun_fin (s : State) : (s.overrun).fin = s.fin := rfl
@[simp] theorem overrun_frk (s : State) : (s.overrun).frk = s.frk := rfl
@[simp] theorem overrun_fout (s : State) : (s.overrun).fout = s.fout := rfl
@[simp] theorem overrun_irqEn (s : State) : (s.overrun).irqEn = s.irqEn := rfl
@[simp] theorem overrun_tm (s : State) : (s.overrun).tm = s.tm := rfl
@[simp] theorem overrun_rkf (s : State) : (s.overrun).rkf = s.rkf := rfl
@[simp] theorem overrun_pend (s : State) : (s.overrun).pend = s.pend := rfl
@[simp] theorem overrun_work (s : State) : (s.overrun).work = s.work := rfl
@[simp] theorem overrun_draws (s : State) : (s.overrun).draws = s.draws := rfl
@[simp] theorem overrun_inputs (s : State) : (s.overrun).inputs = s.inputs := rfl
@[simp] theorem overrun_response (s : State) : (s.overrun).response = s.response := rfl
@[simp] theorem overrun_status_busy (s : State) : (s.overrun).status.busy = s.status.busy := rfl
@[simp] theorem overrun_status_done (s : State) : (s.overrun).status.done = s.status.done := rfl
@[simp] theorem overrun_status_tablesValid (s : State) : (s.overrun).status.tablesValid = s.status.tablesValid := rfl
@[simp] theorem overrun_status_rkValid (s : State) : (s.overrun).status.rkValid = s.status.rkValid := rfl
@[simp] theorem overrun_status_fatal (s : State) : (s.overrun).status.fatal = s.status.fatal := rfl
@[simp] theorem overrun_status_ovr (s : State) : (s.overrun).status.ovr = true := rfl
@[simp] theorem overrun_status_err (s : State) : (s.overrun).status.err = s.status.err := rfl

@[simp] theorem reject_seed (c : ErrCode) (s : State) : (s.reject c).seed = s.seed := rfl
@[simp] theorem reject_key (c : ErrCode) (s : State) : (s.reject c).key = s.key := rfl
@[simp] theorem reject_din (c : ErrCode) (s : State) : (s.reject c).din = s.din := rfl
@[simp] theorem reject_dout (c : ErrCode) (s : State) : (s.reject c).dout = s.dout := rfl
@[simp] theorem reject_fin (c : ErrCode) (s : State) : (s.reject c).fin = s.fin := rfl
@[simp] theorem reject_frk (c : ErrCode) (s : State) : (s.reject c).frk = s.frk := rfl
@[simp] theorem reject_fout (c : ErrCode) (s : State) : (s.reject c).fout = s.fout := rfl
@[simp] theorem reject_irqEn (c : ErrCode) (s : State) : (s.reject c).irqEn = s.irqEn := rfl
@[simp] theorem reject_tm (c : ErrCode) (s : State) : (s.reject c).tm = s.tm := rfl
@[simp] theorem reject_rkf (c : ErrCode) (s : State) : (s.reject c).rkf = s.rkf := rfl
@[simp] theorem reject_pend (c : ErrCode) (s : State) : (s.reject c).pend = s.pend := rfl
@[simp] theorem reject_work (c : ErrCode) (s : State) : (s.reject c).work = s.work := rfl
@[simp] theorem reject_draws (c : ErrCode) (s : State) : (s.reject c).draws = s.draws := rfl
@[simp] theorem reject_inputs (c : ErrCode) (s : State) : (s.reject c).inputs = s.inputs := rfl
@[simp] theorem reject_response (c : ErrCode) (s : State) : (s.reject c).response = s.response := rfl
@[simp] theorem reject_status_busy (c : ErrCode) (s : State) : (s.reject c).status.busy = s.status.busy := rfl
@[simp] theorem reject_status_done (c : ErrCode) (s : State) : (s.reject c).status.done = true := rfl
@[simp] theorem reject_status_tablesValid (c : ErrCode) (s : State) : (s.reject c).status.tablesValid = s.status.tablesValid := rfl
@[simp] theorem reject_status_rkValid (c : ErrCode) (s : State) : (s.reject c).status.rkValid = s.status.rkValid := rfl
@[simp] theorem reject_status_fatal (c : ErrCode) (s : State) : (s.reject c).status.fatal = s.status.fatal := rfl
@[simp] theorem reject_status_ovr (c : ErrCode) (s : State) : (s.reject c).status.ovr = s.status.ovr := rfl
@[simp] theorem reject_status_err (c : ErrCode) (s : State) : (s.reject c).status.err = c.code := rfl

@[simp] theorem nopEnd_seed (s : State) : (s.nopEnd).seed = s.seed := rfl
@[simp] theorem nopEnd_key (s : State) : (s.nopEnd).key = s.key := rfl
@[simp] theorem nopEnd_din (s : State) : (s.nopEnd).din = s.din := rfl
@[simp] theorem nopEnd_dout (s : State) : (s.nopEnd).dout = s.dout := rfl
@[simp] theorem nopEnd_fin (s : State) : (s.nopEnd).fin = s.fin := rfl
@[simp] theorem nopEnd_frk (s : State) : (s.nopEnd).frk = s.frk := rfl
@[simp] theorem nopEnd_fout (s : State) : (s.nopEnd).fout = s.fout := rfl
@[simp] theorem nopEnd_irqEn (s : State) : (s.nopEnd).irqEn = s.irqEn := rfl
@[simp] theorem nopEnd_tm (s : State) : (s.nopEnd).tm = s.tm := rfl
@[simp] theorem nopEnd_rkf (s : State) : (s.nopEnd).rkf = s.rkf := rfl
@[simp] theorem nopEnd_pend (s : State) : (s.nopEnd).pend = s.pend := rfl
@[simp] theorem nopEnd_work (s : State) : (s.nopEnd).work = s.work := rfl
@[simp] theorem nopEnd_draws (s : State) : (s.nopEnd).draws = s.draws := rfl
@[simp] theorem nopEnd_inputs (s : State) : (s.nopEnd).inputs = s.inputs := rfl
@[simp] theorem nopEnd_response (s : State) : (s.nopEnd).response = s.response := rfl
@[simp] theorem nopEnd_status_busy (s : State) : (s.nopEnd).status.busy = s.status.busy := rfl
@[simp] theorem nopEnd_status_done (s : State) : (s.nopEnd).status.done = true := rfl
@[simp] theorem nopEnd_status_tablesValid (s : State) : (s.nopEnd).status.tablesValid = s.status.tablesValid := rfl
@[simp] theorem nopEnd_status_rkValid (s : State) : (s.nopEnd).status.rkValid = s.status.rkValid := rfl
@[simp] theorem nopEnd_status_fatal (s : State) : (s.nopEnd).status.fatal = s.status.fatal := rfl
@[simp] theorem nopEnd_status_ovr (s : State) : (s.nopEnd).status.ovr = s.status.ovr := rfl
@[simp] theorem nopEnd_status_err (s : State) : (s.nopEnd).status.err = 0 := rfl

@[simp] theorem accept_seed (i : Instr) (s : State) : (s.accept i).seed = s.seed := rfl
@[simp] theorem accept_key (i : Instr) (s : State) : (s.accept i).key = s.key := rfl
@[simp] theorem accept_din (i : Instr) (s : State) : (s.accept i).din = s.din := rfl
@[simp] theorem accept_dout (i : Instr) (s : State) : (s.accept i).dout = s.dout := rfl
@[simp] theorem accept_fin (i : Instr) (s : State) : (s.accept i).fin = s.fin := rfl
@[simp] theorem accept_frk (i : Instr) (s : State) : (s.accept i).frk = s.frk := rfl
@[simp] theorem accept_fout (i : Instr) (s : State) : (s.accept i).fout = s.fout := rfl
@[simp] theorem accept_irqEn (i : Instr) (s : State) : (s.accept i).irqEn = s.irqEn := rfl
@[simp] theorem accept_tm (i : Instr) (s : State) : (s.accept i).tm = s.tm := rfl
@[simp] theorem accept_rkf (i : Instr) (s : State) : (s.accept i).rkf = s.rkf := rfl
@[simp] theorem accept_pend (i : Instr) (s : State) : (s.accept i).pend = some i := rfl
@[simp] theorem accept_work (i : Instr) (s : State) : (s.accept i).work = s.work := rfl
@[simp] theorem accept_draws (i : Instr) (s : State) : (s.accept i).draws = s.draws := rfl
@[simp] theorem accept_inputs (i : Instr) (s : State) : (s.accept i).inputs = s.inputs := rfl
@[simp] theorem accept_response (i : Instr) (s : State) : (s.accept i).response = s.response := rfl
@[simp] theorem accept_status_busy (i : Instr) (s : State) : (s.accept i).status.busy = true := rfl
@[simp] theorem accept_status_done (i : Instr) (s : State) : (s.accept i).status.done = false := rfl
@[simp] theorem accept_status_tablesValid (i : Instr) (s : State) : (s.accept i).status.tablesValid = s.status.tablesValid := rfl
@[simp] theorem accept_status_rkValid (i : Instr) (s : State) : (s.accept i).status.rkValid = s.status.rkValid := rfl
@[simp] theorem accept_status_fatal (i : Instr) (s : State) : (s.accept i).status.fatal = s.status.fatal := rfl
@[simp] theorem accept_status_ovr (i : Instr) (s : State) : (s.accept i).status.ovr = s.status.ovr := rfl
@[simp] theorem accept_status_err (i : Instr) (s : State) : (s.accept i).status.err = 0 := rfl

@[simp] theorem finish_seed (c : ErrCode) (s : State) : (s.finish c).seed = s.seed := rfl
@[simp] theorem finish_key (c : ErrCode) (s : State) : (s.finish c).key = s.key := rfl
@[simp] theorem finish_din (c : ErrCode) (s : State) : (s.finish c).din = s.din := rfl
@[simp] theorem finish_dout (c : ErrCode) (s : State) : (s.finish c).dout = s.dout := rfl
@[simp] theorem finish_fin (c : ErrCode) (s : State) : (s.finish c).fin = s.fin := rfl
@[simp] theorem finish_frk (c : ErrCode) (s : State) : (s.finish c).frk = s.frk := rfl
@[simp] theorem finish_fout (c : ErrCode) (s : State) : (s.finish c).fout = s.fout := rfl
@[simp] theorem finish_irqEn (c : ErrCode) (s : State) : (s.finish c).irqEn = s.irqEn := rfl
@[simp] theorem finish_tm (c : ErrCode) (s : State) : (s.finish c).tm = s.tm := rfl
@[simp] theorem finish_rkf (c : ErrCode) (s : State) : (s.finish c).rkf = s.rkf := rfl
@[simp] theorem finish_pend (c : ErrCode) (s : State) : (s.finish c).pend = none := rfl
@[simp] theorem finish_work (c : ErrCode) (s : State) : (s.finish c).work = freeWork s.draws := rfl
@[simp] theorem finish_draws (c : ErrCode) (s : State) : (s.finish c).draws = s.draws + 1 := rfl
@[simp] theorem finish_inputs (c : ErrCode) (s : State) : (s.finish c).inputs = s.inputs := rfl
@[simp] theorem finish_response (c : ErrCode) (s : State) : (s.finish c).response = s.response := rfl
@[simp] theorem finish_status_busy (c : ErrCode) (s : State) : (s.finish c).status.busy = false := rfl
@[simp] theorem finish_status_done (c : ErrCode) (s : State) : (s.finish c).status.done = true := rfl
@[simp] theorem finish_status_tablesValid (c : ErrCode) (s : State) : (s.finish c).status.tablesValid = s.status.tablesValid := rfl
@[simp] theorem finish_status_rkValid (c : ErrCode) (s : State) : (s.finish c).status.rkValid = s.status.rkValid := rfl
@[simp] theorem finish_status_fatal (c : ErrCode) (s : State) : (s.finish c).status.fatal = s.status.fatal := rfl
@[simp] theorem finish_status_ovr (c : ErrCode) (s : State) : (s.finish c).status.ovr = s.status.ovr := rfl
@[simp] theorem finish_status_err (c : ErrCode) (s : State) : (s.finish c).status.err = c.code := rfl

@[simp] theorem performReset_seed (s : State) : (s.performReset).seed = 0 := rfl
@[simp] theorem performReset_key (s : State) : (s.performReset).key = 0 := rfl
@[simp] theorem performReset_din (s : State) : (s.performReset).din = 0 := rfl
@[simp] theorem performReset_dout (s : State) : (s.performReset).dout = 0 := rfl
@[simp] theorem performReset_fin (s : State) : (s.performReset).fin = 0 := rfl
@[simp] theorem performReset_frk (s : State) : (s.performReset).frk = 0 := rfl
@[simp] theorem performReset_fout (s : State) : (s.performReset).fout = 0 := rfl
@[simp] theorem performReset_irqEn (s : State) : (s.performReset).irqEn = false := rfl
@[simp] theorem performReset_tm (s : State) : (s.performReset).tm = none := rfl
@[simp] theorem performReset_rkf (s : State) : (s.performReset).rkf = freeRoundKeys s.draws := rfl
@[simp] theorem performReset_pend (s : State) : (s.performReset).pend = none := rfl
@[simp] theorem performReset_work (s : State) : (s.performReset).work = freeWork s.draws := rfl
@[simp] theorem performReset_draws (s : State) : (s.performReset).draws = s.draws + 1 := rfl
@[simp] theorem performReset_inputs (s : State) : (s.performReset).inputs = s.inputs := rfl
@[simp] theorem performReset_response (s : State) : (s.performReset).response = s.response := rfl
@[simp] theorem performReset_status_busy (s : State) : (s.performReset).status.busy = false := rfl
@[simp] theorem performReset_status_done (s : State) : (s.performReset).status.done = false := rfl
@[simp] theorem performReset_status_tablesValid (s : State) : (s.performReset).status.tablesValid = false := rfl
@[simp] theorem performReset_status_rkValid (s : State) : (s.performReset).status.rkValid = false := rfl
@[simp] theorem performReset_status_fatal (s : State) : (s.performReset).status.fatal = false := rfl
@[simp] theorem performReset_status_ovr (s : State) : (s.performReset).status.ovr = false := rfl
@[simp] theorem performReset_status_err (s : State) : (s.performReset).status.err = 0 := rfl

@[simp] theorem deriveKeys_seed (T : CipherTables) (s : State) : (s.deriveKeys T).seed = s.seed := rfl
@[simp] theorem deriveKeys_key (T : CipherTables) (s : State) : (s.deriveKeys T).key = s.key := rfl
@[simp] theorem deriveKeys_din (T : CipherTables) (s : State) : (s.deriveKeys T).din = s.din := rfl
@[simp] theorem deriveKeys_dout (T : CipherTables) (s : State) : (s.deriveKeys T).dout = s.dout := rfl
@[simp] theorem deriveKeys_fin (T : CipherTables) (s : State) : (s.deriveKeys T).fin = s.fin := rfl
@[simp] theorem deriveKeys_frk (T : CipherTables) (s : State) : (s.deriveKeys T).frk = s.frk := rfl
@[simp] theorem deriveKeys_fout (T : CipherTables) (s : State) : (s.deriveKeys T).fout = s.fout := rfl
@[simp] theorem deriveKeys_irqEn (T : CipherTables) (s : State) : (s.deriveKeys T).irqEn = s.irqEn := rfl
@[simp] theorem deriveKeys_tm (T : CipherTables) (s : State) : (s.deriveKeys T).tm = s.tm := rfl
@[simp] theorem deriveKeys_rkf (T : CipherTables) (s : State) : (s.deriveKeys T).rkf = schedule s.key T := rfl
@[simp] theorem deriveKeys_pend (T : CipherTables) (s : State) : (s.deriveKeys T).pend = s.pend := rfl
@[simp] theorem deriveKeys_work (T : CipherTables) (s : State) : (s.deriveKeys T).work = s.work := rfl
@[simp] theorem deriveKeys_draws (T : CipherTables) (s : State) : (s.deriveKeys T).draws = s.draws := rfl
@[simp] theorem deriveKeys_inputs (T : CipherTables) (s : State) : (s.deriveKeys T).inputs = s.inputs := rfl
@[simp] theorem deriveKeys_response (T : CipherTables) (s : State) : (s.deriveKeys T).response = s.response := rfl
@[simp] theorem deriveKeys_status_busy (T : CipherTables) (s : State) : (s.deriveKeys T).status.busy = s.status.busy := rfl
@[simp] theorem deriveKeys_status_done (T : CipherTables) (s : State) : (s.deriveKeys T).status.done = s.status.done := rfl
@[simp] theorem deriveKeys_status_tablesValid (T : CipherTables) (s : State) : (s.deriveKeys T).status.tablesValid = s.status.tablesValid := rfl
@[simp] theorem deriveKeys_status_rkValid (T : CipherTables) (s : State) : (s.deriveKeys T).status.rkValid = true := rfl
@[simp] theorem deriveKeys_status_fatal (T : CipherTables) (s : State) : (s.deriveKeys T).status.fatal = s.status.fatal := rfl
@[simp] theorem deriveKeys_status_ovr (T : CipherTables) (s : State) : (s.deriveKeys T).status.ovr = s.status.ovr := rfl
@[simp] theorem deriveKeys_status_err (T : CipherTables) (s : State) : (s.deriveKeys T).status.err = s.status.err := rfl

/-- The fields that storing a data word never changes (20_memory.md R55): all but the registers the host may write. -/
theorem storeWord_frame (r : Reg) (d : Word) (s : State) :
    (s.storeWord r d).dout = s.dout ∧ (s.storeWord r d).fout = s.fout ∧ (s.storeWord r d).irqEn = s.irqEn ∧
      (s.storeWord r d).status = s.status ∧ (s.storeWord r d).tm = s.tm ∧ (s.storeWord r d).rkf = s.rkf ∧
      (s.storeWord r d).pend = s.pend ∧ (s.storeWord r d).work = s.work ∧ (s.storeWord r d).draws = s.draws ∧
      (s.storeWord r d).inputs = s.inputs ∧ (s.storeWord r d).response = s.response := by
  cases r <;> simp [storeWord]

/-- A word that is no writable data register stores nothing. -/
theorem storeWord_readOnly (r : Reg) (d : Word) (s : State) (h : r.writable = false) : s.storeWord r d = s := by
  cases r <;> simp_all [storeWord, Reg.writable]

@[simp] theorem idle_eq (s : State) : s.idle = !s.status.busy := rfl

@[simp] theorem irq_eq (s : State) : s.irq = (s.status.done && s.irqEn) := rfl

end Sys2Proof.Machine.State
end

