-- ==== Sys2Proof/Laws/Protocol.lean ====
section
/-! SUPPORT. What the command protocol can do (40_command_protocol.md R74 to R81): one lemma for each shared
operation, cited by every proof about a command. -/

namespace Sys2Proof.Machine

/-- The completion of each command (R76): `Exec(op)`. -/
def completionOf : Instr → State → ExecResult
  | .nop => runNop
  | .init => runInit
  | .derive => runDerive
  | .encrypt => runEncrypt
  | .decrypt => runDecrypt
  | .feval => runFeval

/-- Every command is one `commandStep` over its own completion. -/
theorem exec_eq_commandStep (i : Instr) (s : State) : exec i s = commandStep i (completionOf i) s := by
  cases i <;> rfl

/-- While the block is idle, a command is presented (R74). -/
theorem exec_idle (i : Instr) (s : State) (h : s.status.busy = false) : exec i s = .next (s.present i) := by
  simp [exec_eq_commandStep, commandStep, h]

/-- While a command is pending, its step is its completion (R76). -/
theorem exec_pending (i : Instr) (s : State) (h : s.status.busy = true) (hp : s.pend = some i) :
    exec i s = complete (completionOf i) s := by
  simp [exec_eq_commandStep, commandStep, h, hp]

/-- While another command is pending, a command word is dropped and sets OVR (R79). -/
theorem exec_otherPending (i : Instr) (s : State) (h : s.status.busy = true) (hp : s.pend ≠ some i) :
    exec i s = .next s.overrun := by
  simp [exec_eq_commandStep, commandStep, h, hp]

/-- Everything a presentation can do (R74, R75, R81): NOP ends, a check rejects, or the command is accepted with all
checks passed. -/
theorem present_cases (i : Instr) (s : State) :
    (i = .nop ∧ s.present i = s.nopEnd) ∨
    (i ≠ .nop ∧ s.status.fatal = true ∧ s.present i = s.reject .fatal) ∨
    (i = .init ∧ s.status.fatal = false ∧ s.status.tablesValid = true ∧ s.present i = s.reject .tablesLocked) ∨
    (i ≠ .nop ∧ i ≠ .init ∧ s.status.fatal = false ∧ s.status.tablesValid = false ∧
      s.present i = s.reject .notInit) ∨
    (i = .init ∧ s.status.fatal = false ∧ s.status.tablesValid = false ∧ s.present i = s.accept i) ∨
    (i ≠ .nop ∧ i ≠ .init ∧ s.status.fatal = false ∧ s.status.tablesValid = true ∧ s.present i = s.accept i) := by
  cases i <;> cases hf : s.status.fatal <;> cases ht : s.status.tablesValid <;> simp [State.present, hf, ht]

/-- Everything a completion can do: it stores the code its `Exec` returns (R76), or stops as its `Exec` does. -/
theorem complete_next {run : State → ExecResult} {s s' : State} (h : complete run s = .next s') :
    ∃ s1 c, run s = .ok (s1, c) ∧ s' = s1.finish c := by
  unfold complete at h
  split at h
  · next s1 c hr => exact ⟨s1, c, hr, by simpa using h.symm⟩
  · cases h

theorem withTables_some {s : State} {T : CipherTables} {f : CipherTables → State × ErrCode} (h : s.tm = some T) :
    withTables s f = .ok (f T) := by simp [withTables, h]

theorem withTables_none {s : State} {f : CipherTables → State × ErrCode} (h : s.tm = none) :
    withTables s f = .error .noTables := by simp [withTables, h]

theorem withTables_ok {s s1 : State} {c : ErrCode} {f : CipherTables → State × ErrCode}
    (h : withTables s f = .ok (s1, c)) : ∃ T, s.tm = some T ∧ f T = (s1, c) := by
  unfold withTables at h
  split at h
  · next T hT => exact ⟨T, hT, by simpa using h⟩
  · cases h

/-- Everything the completions can do (R90, R98, R109, R115, R116). -/
theorem completion_cases {i : Instr} {s s1 : State} {c : ErrCode} (h : completionOf i s = .ok (s1, c)) :
    (i = .init ∧ (s1, c) = installTables (Config.tableGen s.seed) s) ∨
    (i = .derive ∧ c = .none ∧ ∃ T, s.tm = some T ∧ s1 = s.deriveKeys T) ∨
    (i = .encrypt ∧ c = .none ∧ ∃ T, s.tm = some T ∧
      s1 = { s.deriveKeys T with dout := feistel T s.din (schedule s.key T) encryptOrder }) ∨
    (i = .decrypt ∧ c = .none ∧ ∃ T, s.tm = some T ∧
      s1 = { s.deriveKeys T with dout := feistel T s.din (schedule s.key T) decryptOrder }) ∨
    (i = .feval ∧ c = .none ∧ ∃ T, s.tm = some T ∧ s1 = { s with fout := roundF T s.fin s.frk }) := by
  cases i with
  | nop => cases h
  | init => exact .inl ⟨rfl, by simpa [completionOf, runInit] using h.symm⟩
  | derive =>
    obtain ⟨T, hT, he⟩ := withTables_ok h
    cases he
    exact .inr (.inl ⟨rfl, rfl, T, hT, rfl⟩)
  | encrypt =>
    obtain ⟨T, hT, he⟩ := withTables_ok h
    cases he
    exact .inr (.inr (.inl ⟨rfl, rfl, T, hT, rfl⟩))
  | decrypt =>
    obtain ⟨T, hT, he⟩ := withTables_ok h
    cases he
    exact .inr (.inr (.inr (.inl ⟨rfl, rfl, T, hT, rfl⟩)))
  | feval =>
    obtain ⟨T, hT, he⟩ := withTables_ok h
    cases he
    exact .inr (.inr (.inr (.inr ⟨rfl, rfl, T, hT, rfl⟩)))

/-- The two outcomes of an INIT's generation (R90). -/
theorem installTables_cases (T : CipherTablesRaw) (s : State) :
    (∃ h : T.wf = true, installTables T s =
      ({ s with tm := some ⟨T, h⟩, status := { s.status with tablesValid := true } }, .none)) ∨
    (T.wf = false ∧ installTables T s =
      ({ s with tm := none, status := { s.status with fatal := true } }, .tableGenFail)) := by
  by_cases h : T.wf = true
  · exact .inl ⟨h, by simp [installTables, h]⟩
  · exact .inr ⟨by simpa using h, by simp [installTables, h]⟩

/-- `Exec` of the commands over the table memory touches neither agents' events nor the bus answer. -/
theorem completion_keeps_model {i : Instr} {s s1 : State} {c : ErrCode} (h : completionOf i s = .ok (s1, c)) :
    s1.inputs = s.inputs ∧ s1.response = s.response ∧ s1.draws = s.draws := by
  rcases completion_cases h with ⟨-, he⟩ | ⟨-, -, T, -, rfl⟩ | ⟨-, -, T, -, rfl⟩ | ⟨-, -, T, -, rfl⟩ | ⟨-, -, T, -, rfl⟩
  · rcases installTables_cases (Config.tableGen s.seed) s with ⟨hw, hi⟩ | ⟨hw, hi⟩ <;> rw [hi] at he <;> cases he <;>
      simp
  all_goals simp

/-- The fields that no presentation changes (R74, R75): all but BUSY, DONE, ERR and PEND. -/
theorem present_frame (i : Instr) (s : State) :
    (s.present i).seed = s.seed ∧ (s.present i).key = s.key ∧ (s.present i).din = s.din ∧
      (s.present i).dout = s.dout ∧ (s.present i).fin = s.fin ∧ (s.present i).frk = s.frk ∧
      (s.present i).fout = s.fout ∧ (s.present i).irqEn = s.irqEn ∧ (s.present i).tm = s.tm ∧
      (s.present i).rkf = s.rkf ∧ (s.present i).work = s.work ∧ (s.present i).draws = s.draws ∧
      (s.present i).inputs = s.inputs ∧ (s.present i).response = s.response ∧
      (s.present i).status.tablesValid = s.status.tablesValid ∧ (s.present i).status.rkValid = s.status.rkValid ∧
      (s.present i).status.fatal = s.status.fatal ∧ (s.present i).status.ovr = s.status.ovr := by
  rcases present_cases i s with ⟨_, e⟩ | ⟨_, _, e⟩ | ⟨_, _, _, e⟩ | ⟨_, _, _, _, e⟩ | ⟨_, _, _, e⟩ | ⟨_, _, _, _, e⟩ <;>
    rw [e] <;> simp

/-- The fields that no completion's own effect changes, and which command may change each output (R76). -/
theorem completion_frame {i : Instr} {s s1 : State} {c : ErrCode} (h : completionOf i s = .ok (s1, c)) :
    s1.seed = s.seed ∧ s1.key = s.key ∧ s1.din = s.din ∧ s1.fin = s.fin ∧ s1.frk = s.frk ∧ s1.irqEn = s.irqEn ∧
      s1.inputs = s.inputs ∧ s1.response = s.response ∧ s1.draws = s.draws ∧ s1.status.ovr = s.status.ovr ∧
      (s1.dout = s.dout ∨ i = .encrypt ∨ i = .decrypt) ∧ (s1.fout = s.fout ∨ i = .feval) ∧
      (s1.tm = s.tm ∨ i = .init) ∧ (s1.rkf = s.rkf ∨ i = .derive ∨ i = .encrypt ∨ i = .decrypt) := by
  rcases completion_cases h with ⟨rfl, e⟩ | ⟨rfl, rfl, T, hT, rfl⟩ | ⟨rfl, rfl, T, hT, rfl⟩ | ⟨rfl, rfl, T, hT, rfl⟩ |
    ⟨rfl, rfl, T, hT, rfl⟩
  · rcases installTables_cases (Config.tableGen s.seed) s with ⟨_, hi⟩ | ⟨_, hi⟩ <;> rw [hi] at e <;> cases e <;> simp
  all_goals simp

/-- No presentation depends on IRQ_EN or changes it (10_state.md R28). -/
theorem present_withIrqEn (i : Instr) (s : State) (b : Bool) :
    ({ s with irqEn := b } : State).present i = { s.present i with irqEn := b } := by
  unfold State.present
  split_ifs <;> rfl

/-- No completion depends on IRQ_EN or changes it (10_state.md R28). -/
theorem completion_withIrqEn (i : Instr) (s : State) (b : Bool) :
    completionOf i { s with irqEn := b } = (completionOf i s).map fun r => ({ r.1 with irqEn := b }, r.2) := by
  cases i with
  | nop => rfl
  | init =>
    rcases installTables_cases (Config.tableGen s.seed) s with ⟨hw, -⟩ | ⟨hw, -⟩ <;>
      simp [completionOf, runInit, installTables, hw, Except.map]
  | _ =>
    simp only [completionOf, runDerive, runEncrypt, runDecrypt, runFeval]
    rcases Option.eq_none_or_eq_some s.tm with h | ⟨T, h⟩
    · rw [withTables_none h, withTables_none (by exact h)]; rfl
    · rw [withTables_some h, withTables_some (T := T) (by exact h)]; rfl

end Sys2Proof.Machine
end

