-- ==== Sys2Proof/Laws/Step.lean ====
section
/-! SUPPORT. Everything one step can do, said once: `step_effect`. Invariants and frames over all steps are case
analyses on `Effect`. -/

namespace Sys2Proof.Machine

/-- What a step makes of a state whose oldest event, if there is one, has been taken: the event, the state before and
the state after. -/
inductive Effect : Option Event → State → State → Prop
  /-- the Core is scheduled and nothing is pending (R76, R136) -/
  | nothing (e : Option Event) (s : State) : (e = none ∨ e = some .core) → s.status.busy = false → Effect e s s
  /-- the reset input (R137) -/
  | resetPin (s : State) : Effect (some .resetPin) s s.performReset
  /-- a bus error of a read (R123) -/
  | readErr (s : State) (a : Addr) (bits : Nat) : target a bits = none →
      Effect (some (.bus (.read a bits))) s s.busErr
  /-- a bus error of a write (R123) -/
  | writeErr (s : State) (a : Addr) (bits : Nat) (d : Word) :
      (target a bits = none ∨ ∃ r, target a bits = some r ∧ r.writable = false) →
      Effect (some (.bus (.write a bits d))) s s.busErr
  /-- a read that returns defined data (R54) -/
  | readData (s : State) (a : Addr) (bits : Nat) (r : Reg) (x : Word) : target a bits = some r →
      s.readReg r = some x → Effect (some (.bus (.read a bits))) s (s.respond (.data x))
  /-- a read that returns a draw (R56, R57) -/
  | readDraw (s : State) (a : Addr) (bits : Nat) (r : Reg) : target a bits = some r → s.readReg r = none →
      Effect (some (.bus (.read a bits))) s
        { s.respond (.data (Config.drawWord s.draws)) with draws := s.draws + 1 }
  /-- a soft reset (R29, R137) -/
  | softReset (s : State) (a : Addr) (bits : Nat) (d : Word) : target a bits = some .ctrl → d.getLsbD 1 = true →
      Effect (some (.bus (.write a bits d))) s (s.respond .ok).performReset
  /-- a write of IRQ_EN (R28) -/
  | irqEnable (s : State) (a : Addr) (bits : Nat) (d : Word) : target a bits = some .ctrl → d.getLsbD 1 = false →
      Effect (some (.bus (.write a bits d))) s { s.respond .ok with irqEn := d.getLsbD 0 }
  /-- a write-1-to-clear of STATUS (R55) -/
  | statusClear (s : State) (a : Addr) (bits : Nat) (d : Word) : target a bits = some .status →
      Effect (some (.bus (.write a bits d))) s { s.respond .ok with status := s.status.writeOneToClear d }
  /-- a write dropped while busy (R124) -/
  | dropped (s : State) (a : Addr) (bits : Nat) (d : Word) (r : Reg) : target a bits = some r → r.writable = true →
      r ≠ .ctrl → r ≠ .status → s.status.busy = true →
      Effect (some (.bus (.write a bits d))) s (s.respond .ok).overrun
  /-- a data register word is stored (R55) -/
  | store (s : State) (a : Addr) (bits : Nat) (d : Word) (r : Reg) : target a bits = some r → r.writable = true →
      r ≠ .ctrl → r ≠ .status → r ≠ .cmd → s.status.busy = false →
      Effect (some (.bus (.write a bits d))) s ((s.respond .ok).storeWord r d)
  /-- an illegal command word is rejected (R67) -/
  | illegal (s : State) (a : Addr) (bits : Nat) (d : Word) : target a bits = some .cmd → s.status.busy = false →
      decode d = .illegal → Effect (some (.bus (.write a bits d))) s ((s.respond .ok).reject .illegalCmd)
  /-- a command is presented (R74) -/
  | presented (s : State) (a : Addr) (bits : Nat) (d : Word) (i : Instr) : target a bits = some .cmd →
      s.status.busy = false → decode d = .command i →
      Effect (some (.bus (.write a bits d))) s ((s.respond .ok).present i)
  /-- the pending command completes (R76) -/
  | completed (e : Option Event) (s s1 : State) (i : Instr) (c : ErrCode) : (e = none ∨ e = some .core) →
      s.status.busy = true → s.pend = some i → completionOf i s = .ok (s1, c) → Effect e s (s1.finish c)

/-- The result of an action that needs no command, or of running the command it names. -/
def actionOutcome : Action → Host.Outcome State Fault Refusal
  | .settle s => .next s
  | .run i s => exec i s
  | .stop f => .fault f

theorem step_eq (s : State) : step s = actionOutcome (fetch s) := by
  unfold step actionOutcome
  split <;> simp_all

theorem busRead_effect (a : Addr) (bits : Nat) (s : State) :
    Effect (some (.bus (.read a bits))) s (busRead a bits s) := by
  unfold busRead
  split
  · next h => exact .readErr s a bits h
  · next r h =>
    split
    · next x hx => exact .readData s a bits r x h hx
    · next hx => exact .readDraw s a bits r h hx

theorem busWrite_effect {a : Addr} {bits : Nat} {d : Word} {s s' : State}
    (h : actionOutcome (busWrite a bits d s) = .next s') : Effect (some (.bus (.write a bits d))) s s' := by
  unfold busWrite at h
  split at h
  · next ht =>
    simp only [actionOutcome, Host.Outcome.next.injEq] at h
    exact h ▸ .writeErr s a bits d (.inl ht)
  next r ht =>
  split at h
  · next hw =>
    simp only [actionOutcome, Host.Outcome.next.injEq] at h
    exact h ▸ .writeErr s a bits d (.inr ⟨r, ht, by simpa using hw⟩)
  next hw =>
  have hw' : r.writable = true := by simpa using hw
  split at h
  · next hc =>
    simp only [actionOutcome, Host.Outcome.next.injEq] at h
    subst h hc
    unfold writeCtrl
    split
    · next h1 => exact .softReset s a bits d ht h1
    · next h1 => exact .irqEnable s a bits d ht (by simpa using h1)
  next hc =>
  split at h
  · next hs =>
    simp only [actionOutcome, Host.Outcome.next.injEq] at h
    subst h hs
    exact .statusClear s a bits d ht
  next hs =>
  split at h
  · next hb =>
    simp only [actionOutcome, Host.Outcome.next.injEq] at h
    exact h ▸ .dropped s a bits d r ht hw' hc hs hb
  next hb =>
  have hb' : s.status.busy = false := by simpa using hb
  split at h
  · next hm =>
    subst hm
    unfold presentWord at h
    split at h
    · next i hd =>
      rw [actionOutcome, exec_idle i _ (by simpa using hb')] at h
      simp only [Host.Outcome.next.injEq] at h
      exact h ▸ .presented s a bits d i ht hb' hd
    · next hd =>
      simp only [actionOutcome, Host.Outcome.next.injEq] at h
      exact h ▸ .illegal s a bits d ht hb' hd
  · next hm =>
    simp only [actionOutcome, Host.Outcome.next.injEq] at h
    exact h ▸ .store s a bits d r ht hw' hc hs hm hb'

theorem coreAction_effect {e : Option Event} {s s' : State} (he : e = none ∨ e = some .core)
    (h : actionOutcome (coreAction s) = .next s') : Effect e s s' := by
  unfold coreAction at h
  split at h
  · next hb =>
    split at h
    · next i hp =>
      rw [actionOutcome, exec_pending i s hb hp] at h
      obtain ⟨s1, c, hr, rfl⟩ := complete_next h
      exact .completed e s s1 i c he hb hp hr
    · cases h
  · next hb =>
    simp only [actionOutcome, Host.Outcome.next.injEq] at h
    exact h ▸ .nothing e s he (by simpa using hb)

/-- Everything a step can do: it takes the oldest event, if there is one, and has one of the effects. -/
theorem step_effect {s s' : State} (h : step s = .next s') : Effect s.inputs.head? s.popped s' := by
  rw [step_eq] at h
  unfold fetch at h
  unfold State.popped
  split at h
  · next hi =>
    have e : ({ s with inputs := s.inputs.tail } : State) = s := by
      rw [hi, List.tail_nil, ← hi]
    rw [e]
    exact coreAction_effect (.inl (by simp [hi])) h
  · next rest hi =>
    rw [hi]
    exact coreAction_effect (.inr rfl) h
  · next t rest hi =>
    rw [hi]
    cases t with
    | read a bits =>
      simp only [transact, actionOutcome, Host.Outcome.next.injEq] at h
      exact h ▸ busRead_effect a bits _
    | write a bits d => exact busWrite_effect h
  · next rest hi =>
    rw [hi]
    simp only [actionOutcome, Host.Outcome.next.injEq] at h
    exact h ▸ .resetPin _

end Sys2Proof.Machine
end

