-- ==== Sys2Proof/Laws/Bus.lean ====
section
/-! SUPPORT. What a bus transaction to a named register word does, one lemma for each case of 20_memory.md R54 and R55,
so that no proof walks the address map or the order of the checks again. -/

namespace Sys2Proof.Machine

/-- The word at the offset of a register word is that register word (R53). -/
theorem Reg.atOffset_offset (r : Reg) (n : Nat) (hn : n = r.offset) : Reg.atOffset n = some r := by
  unfold Reg.atOffset
  cases r <;> simp only [Reg.offset] at hn
  all_goals
    repeat (first | rw [if_neg (by omega)] | rw [dif_neg (by omega)])
    first | rw [if_pos (by omega)] | rw [dif_pos (by omega)]
  all_goals (congr 2 <;> (apply Fin.ext; simp only; omega))

theorem Reg.offset_lt (r : Reg) : r.offset < 2 ^ 17 := by
  cases r <;> simp only [Reg.offset] <;> omega

theorem Reg.offset_aligned (r : Reg) : r.offset % 4 = 0 := by
  cases r <;> simp only [Reg.offset] <;> omega

@[simp] theorem Reg.addr_toNat (r : Reg) : r.addr.toNat = r.offset := by
  have := r.offset_lt
  simp only [Reg.addr, BitVec.toNat_ofNat]
  omega

@[simp] theorem Reg.ofAddr_addr (r : Reg) : Reg.ofAddr r.addr = some r :=
  Reg.atOffset_offset r _ r.addr_toNat

@[simp] theorem Reg.aligned_addr (r : Reg) : aligned r.addr = true := by
  simp [aligned, r.offset_aligned]

/-- A 32-bit access to the address of a register word reaches it. -/
@[simp] theorem target_addr (r : Reg) : target r.addr 32 = some r := by simp [target]

section Cases

variable (s : State) (r : Reg) (d : Word)

theorem busRead_data {x : Word} (h : s.readReg r = some x) : busRead r.addr 32 s = s.respond (.data x) := by
  simp [busRead, h]

theorem busRead_draw (h : s.readReg r = none) :
    busRead r.addr 32 s = { s.respond (.data (Config.drawWord s.draws)) with draws := s.draws + 1 } := by
  simp [busRead, h]

theorem busWrite_readOnly (h : r.writable = false) : busWrite r.addr 32 d s = .settle s.busErr := by
  simp [busWrite, h]

theorem busWrite_ctrl : busWrite (Reg.ctrl).addr 32 d s = .settle (writeCtrl d (s.respond .ok)) := by
  simp [busWrite, Reg.writable]

theorem busWrite_status :
    busWrite (Reg.status).addr 32 d s = .settle { s.respond .ok with status := s.status.writeOneToClear d } := by
  simp [busWrite, Reg.writable]

theorem busWrite_busy (hw : r.writable = true) (hc : r ≠ .ctrl) (hs : r ≠ .status) (hb : s.status.busy = true) :
    busWrite r.addr 32 d s = .settle (s.respond .ok).overrun := by
  simp [busWrite, hw, hc, hs, hb]

theorem busWrite_cmd (hb : s.status.busy = false) :
    busWrite (Reg.cmd).addr 32 d s = presentWord d (s.respond .ok) := by
  simp [busWrite, Reg.writable, hb]

theorem busWrite_store (hw : r.writable = true) (hc : r ≠ .ctrl) (hs : r ≠ .status) (hm : r ≠ .cmd)
    (hb : s.status.busy = false) : busWrite r.addr 32 d s = .settle ((s.respond .ok).storeWord r d) := by
  simp [busWrite, hw, hc, hs, hm, hb]

/-- The step that takes a host write to a register word. -/
theorem step_nextWrites (h : s.nextWrites r d) : step s = actionOutcome (busWrite r.addr 32 d s.popped) := by
  obtain ⟨rest, hi⟩ := h
  simp [step_eq, fetch, hi, transact, State.popped]

/-- The step that takes a host read of a register word. -/
theorem step_nextReads (h : s.nextReads r) : step s = .next (busRead r.addr 32 s.popped) := by
  obtain ⟨rest, hi⟩ := h
  simp [step_eq, fetch, hi, transact, State.popped, actionOutcome]

end Cases

/-- The step that takes a read transaction. -/
theorem step_read {s : State} {a : Addr} {bits : Nat} (h : s.inputs.head? = some (.bus (.read a bits))) :
    step s = .next (busRead a bits s.popped) := by
  obtain ⟨rest, hi⟩ := List.head?_eq_some_iff.mp h
  simp [step_eq, fetch, hi, transact, State.popped, actionOutcome]

/-- The step that takes a write transaction. -/
theorem step_write {s : State} {a : Addr} {bits : Nat} {d : Word}
    (h : s.inputs.head? = some (.bus (.write a bits d))) :
    step s = actionOutcome (busWrite a bits d s.popped) := by
  obtain ⟨rest, hi⟩ := List.head?_eq_some_iff.mp h
  simp [step_eq, fetch, hi, transact, State.popped]

/-- The step of the Core, by its own event or because no event is left (R76, R78). -/
theorem step_core {s : State} (h : s.inputs = [] ∨ s.inputs.head? = some .core) :
    step s = actionOutcome (coreAction s.popped) := by
  rcases h with hi | h
  · have e : s.popped = s := by
      unfold State.popped
      rw [hi, List.tail_nil, ← hi]
    simp [step_eq, fetch, hi, e]
  · obtain ⟨rest, hi⟩ := List.head?_eq_some_iff.mp h
    simp [step_eq, fetch, hi, State.popped]

/-- The step of the reset input (R137). -/
theorem step_resetPin {s : State} (h : s.inputs.head? = some .resetPin) :
    step s = .next s.popped.performReset := by
  obtain ⟨rest, hi⟩ := List.head?_eq_some_iff.mp h
  simp [step_eq, fetch, hi, State.popped, actionOutcome]

/-- The seed's halves as numbers (R46). -/
theorem seedLow_toNat (x : Seed) : (seedLow x).toNat = x.toNat % 2 ^ 32 := by
  simp [seedLow, BitVec.extractLsb'_toNat]

theorem seedHigh_toNat (x : Seed) : (seedHigh x).toNat = x.toNat / 2 ^ 32 := by
  have h : x.toNat < 2 ^ 64 := x.isLt
  simp only [seedHigh, BitVec.extractLsb'_toNat, Nat.shiftRight_eq_div_pow]
  omega

/-- `SEED_HI · 2^32 + SEED_LO` (R69). -/
theorem joinSeed_toNat (hi lo : Word) : (joinSeed hi lo).toNat = hi.toNat * 2 ^ 32 + lo.toNat := by
  have h2 := lo.isLt
  have e : (joinSeed hi lo).toNat = (hi ++ lo : BitVec (32 + 32)).toNat := rfl
  rw [e, BitVec.toNat_append, Nat.shiftLeft_eq, Nat.mul_comm, ← Nat.two_pow_add_eq_or_of_lt h2]

/-- The seed's two words put together, taken apart again (R46, R69). -/
@[simp] theorem seedLow_joinSeed (hi lo : Word) : seedLow (joinSeed hi lo) = lo := by
  have h2 := lo.isLt
  apply BitVec.eq_of_toNat_eq
  rw [seedLow_toNat, joinSeed_toNat]
  omega

@[simp] theorem seedHigh_joinSeed (hi lo : Word) : seedHigh (joinSeed hi lo) = hi := by
  have h2 := lo.isLt
  apply BitVec.eq_of_toNat_eq
  rw [seedHigh_toNat, joinSeed_toNat]
  omega

@[simp] theorem joinSeed_words (x : Seed) : joinSeed (seedHigh x) (seedLow x) = x := by
  apply BitVec.eq_of_toNat_eq
  rw [joinSeed_toNat, seedHigh_toNat, seedLow_toNat]
  omega

section Popped

variable (s : State)

@[simp] theorem State.popped_seed : s.popped.seed = s.seed := rfl
@[simp] theorem State.popped_key : s.popped.key = s.key := rfl
@[simp] theorem State.popped_din : s.popped.din = s.din := rfl
@[simp] theorem State.popped_dout : s.popped.dout = s.dout := rfl
@[simp] theorem State.popped_fin : s.popped.fin = s.fin := rfl
@[simp] theorem State.popped_frk : s.popped.frk = s.frk := rfl
@[simp] theorem State.popped_fout : s.popped.fout = s.fout := rfl
@[simp] theorem State.popped_irqEn : s.popped.irqEn = s.irqEn := rfl
@[simp] theorem State.popped_status : s.popped.status = s.status := rfl
@[simp] theorem State.popped_tm : s.popped.tm = s.tm := rfl
@[simp] theorem State.popped_rkf : s.popped.rkf = s.rkf := rfl
@[simp] theorem State.popped_pend : s.popped.pend = s.pend := rfl
@[simp] theorem State.popped_work : s.popped.work = s.work := rfl
@[simp] theorem State.popped_draws : s.popped.draws = s.draws := rfl
@[simp] theorem State.popped_inputs : s.popped.inputs = s.inputs.tail := rfl
@[simp] theorem State.popped_response : s.popped.response = s.response := rfl

/-- What a register word reads as does not depend on the events still to come or on the bus answer. -/
@[simp] theorem State.popped_readReg (r : Reg) : s.popped.readReg r = s.readReg r := by cases r <;> rfl

@[simp] theorem State.popped_busyWithRoundKeys : s.popped.busyWithRoundKeys = s.busyWithRoundKeys := rfl

@[simp] theorem State.respond_readReg (x : BusResponse) (r : Reg) : (s.respond x).readReg r = s.readReg r := by
  cases r <;> rfl

/-- Only a read of CTRL depends on IRQ_EN (R28, R54). -/
theorem State.readReg_withIrqEn (r : Reg) (b : Bool) (h : r ≠ .ctrl) :
    ({ s with irqEn := b } : State).readReg r = s.readReg r := by
  cases r <;> first | rfl | exact absurd rfl h

end Popped

theorem some_of_ite {α : Type} {c : Prop} [Decidable c] {x r : α} {y : Option α}
    (h : (if c then some x else y) = some r) : (c ∧ x = r) ∨ y = some r := by
  by_cases hc : c
  · rw [if_pos hc] at h
    exact .inl ⟨hc, by simpa using h⟩
  · rw [if_neg hc] at h
    exact .inr h

theorem some_of_dite {α : Type} {c : Prop} [Decidable c] {x : c → α} {r : α} {y : Option α}
    (h : (if hc : c then some (x hc) else y) = some r) : (∃ hc : c, x hc = r) ∨ y = some r := by
  by_cases hc : c
  · rw [dif_pos hc] at h
    exact .inl ⟨hc, by simpa using h⟩
  · rw [dif_neg hc] at h
    exact .inr h

/-- A register word found at an aligned offset stands at that offset (R53). -/
theorem Reg.offset_of_atOffset {n : Nat} {r : Reg} (h4 : n % 4 = 0) (h : Reg.atOffset n = some r) :
    r.offset = n := by
  unfold Reg.atOffset at h
  iterate 6
    rcases some_of_ite h with ⟨hc, rfl⟩ | h
    · exact hc.symm
  iterate 16
    rcases some_of_dite h with ⟨hc, rfl⟩ | h
    · simp only [Reg.offset]; omega
  cases h

/-- An access that reaches a register word is a 32-bit access to that word's address (R49, R50, R53). -/
theorem target_some {a : Addr} {bits : Nat} {r : Reg} (h : target a bits = some r) : a = r.addr ∧ bits = 32 := by
  unfold target at h
  split_ifs at h with h1 h2
  refine ⟨?_, by simpa using h2⟩
  apply BitVec.eq_of_toNat_eq
  rw [Reg.addr_toNat, Reg.offset_of_atOffset (by simpa [aligned] using h1) h]

/-- The next event, read back from an effect's target (R55). -/
theorem nextWrites_of_target {s : State} {a : Addr} {bits : Nat} {d : Word} {r : Reg}
    (e : s.inputs.head? = some (.bus (.write a bits d))) (h : target a bits = some r) : s.nextWrites r d := by
  obtain ⟨rfl, rfl⟩ := target_some h
  obtain ⟨rest, hi⟩ := List.head?_eq_some_iff.mp e
  exact ⟨rest, hi⟩

/-- The step that stores a data register word (R55). -/
theorem step_storeWord (s : State) (r : Reg) (d : Word) (rest : List Event) (hw : r.writable = true) (hc : r ≠ .ctrl)
    (hs : r ≠ .status) (hm : r ≠ .cmd) (hb : s.status.busy = false) :
    step { s with inputs := .bus (.write r.addr 32 d) :: rest } =
      .next { s.storeWord r d with inputs := rest, response := some .ok } := by
  rw [step_nextWrites _ r d ⟨rest, rfl⟩, busWrite_store _ _ _ hw hc hs hm (by simpa using hb)]
  cases r <;> rfl

/-- The step that presents a command (R74). -/
theorem step_present (s : State) (i : Instr) (rest : List Event) (hb : s.status.busy = false) :
    step { s with inputs := .bus (.write Reg.cmd.addr 32 (encode i)) :: rest } =
      .next (({ s with inputs := rest, response := some .ok } : State).present i) := by
  rw [step_nextWrites _ .cmd (encode i) ⟨rest, rfl⟩, busWrite_cmd _ _ (by simpa using hb), presentWord]
  have : decode (encode i) = .command i := by cases i <;> rfl
  rw [this]
  simp only [actionOutcome]
  rw [exec_idle _ _ (by simpa using hb)]
  rfl

end Sys2Proof.Machine
end

