-- ==== Sys2Proof/Laws/PerInstr.lean ====
section
/-! SUPPORT. The family `WordFits`: the command word of each command is well formed, field by field (30_encoding.md
R64, R65). -/

namespace Sys2Proof.Laws.WordFits

/-- The command word of `i` has its must-be-zero field clear and an assigned opcode (R64, R67). -/
def Statement (i : Instr) : Prop := wordWellFormed (encode i) = true

theorem nop : Statement .nop := by unfold Statement; decide
theorem init : Statement .init := by unfold Statement; decide
theorem derive : Statement .derive := by unfold Statement; decide
theorem encrypt : Statement .encrypt := by unfold Statement; decide
theorem decrypt : Statement .decrypt := by unfold Statement; decide
theorem feval : Statement .feval := by unfold Statement; decide

end Sys2Proof.Laws.WordFits
end

