-- ==== Sys2Proof/Laws/Tables.lean ====
section
/-! SUPPORT. What the well-formedness of a table set gives a proof about the datapath: entries in range and distinct
(41_table_generator.md R85 to R87, R89). -/

namespace Sys2Proof

/-- Distinct entries of a vector, by position. -/
theorem nodup_toList_iff {α : Type} {m : Nat} (T : Vector α m) :
    T.toList.Nodup ↔ ∀ a b : Fin m, a < b → T[a] ≠ T[b] := by
  rw [List.Nodup, List.pairwise_iff_getElem]
  constructor
  · intro h a b hab
    have := h a.val b.val (by simp) (by simp) hab
    simpa using this
  · intro h i j hi hj hij
    have := h ⟨i, by simpa using hi⟩ ⟨j, by simpa using hj⟩ hij
    simpa using this

/-- A property of every listed entry, by position. -/
theorem all_toList_iff {α : Type} {m : Nat} (T : Vector α m) (p : α → Bool) :
    T.toList.all p = true ↔ ∀ a : Fin m, p T[a] = true := by
  rw [List.all_eq_true]
  constructor
  · intro h a
    exact h _ (by simp)
  · intro h x hx
    obtain ⟨i, hi, rfl⟩ := List.mem_iff_getElem.mp hx
    have := h ⟨i, by simpa using hi⟩
    simpa using this

namespace CipherTablesRaw

/-- `WF_CTk` by position (R85). -/
theorem wfCompression_iff {m : Nat} (win : Nat) (T : Vector (BitVec 7) m) :
    wfCompression win T = true ↔ (∀ j : Fin m, T[j].toNat < win) ∧ ∀ a b : Fin m, a < b → T[a] ≠ T[b] := by
  simp only [wfCompression, Bool.and_eq_true, all_toList_iff, nodup_toList_iff, decide_eq_true_eq]

/-- `WF_SHIFT` by position (R86). -/
theorem wfShift_iff (T : Vector (BitVec 3) 42) :
    wfShift T = true ↔ ∀ r : Fin 42, T[r].toNat = 1 ∨ T[r].toNat = 2 ∨ T[r].toNat = 3 ∨ T[r].toNat = 5 := by
  simp only [wfShift, all_toList_iff]
  simp [or_assoc]

/-- `WF_P` by position (R89). -/
theorem wfPermutation_iff (T : Vector (BitVec 6) 64) :
    wfPermutation T = true ↔ ∀ a b : Fin 64, a < b → T[a] ≠ T[b] := by
  simp only [wfPermutation, decide_eq_true_eq, nodup_toList_iff]

/-- Distinct entries of a window of a vector, by position. -/
theorem nodup_window_iff {α : Type} {m : Nat} (T : Vector α m) (s l : Nat) (h : s + l ≤ m) :
    ((T.toList.drop s).take l).Nodup ↔ ∀ a b : Fin m, s ≤ a.val → a < b → b.val < s + l → T[a] ≠ T[b] := by
  rw [List.Nodup, List.pairwise_iff_getElem]
  have hl : ((T.toList.drop s).take l).length = l := by simp; omega
  constructor
  · intro H a b h1 h2 h3
    have h2' : a.val < b.val := h2
    have := H (a.val - s) (b.val - s) (by rw [hl]; omega) (by rw [hl]; omega) (by omega)
    simpa [show s + (a.val - s) = a.val by omega, show s + (b.val - s) = b.val by omega] using this
  · intro H i j hi hj hij
    rw [hl] at hi hj
    have := H ⟨s + i, by omega⟩ ⟨s + j, by omega⟩ (by simp) (by simpa [Fin.lt_def] using hij) (by simpa using hj)
    simpa using this

/-- `WF_EXP` by position (R87). -/
theorem wfExp_iff (T : Vector (BitVec 6) 88) :
    wfExp T = true ↔ ∀ (g : Fin 8) (a b : Fin 88), 11 * g.val ≤ a.val → a < b → b.val ≤ 11 * g.val + 10 →
      T[a] ≠ T[b] := by
  simp only [wfExp, List.all_eq_true, List.mem_range, decide_eq_true_eq]
  constructor
  · intro H g a b h1 h2 h3
    exact (nodup_window_iff T (11 * g) 11 (by omega)).mp (H g g.isLt) a b h1 h2 (by omega)
  · intro H g hg
    exact (nodup_window_iff T (11 * g) 11 (by omega)).mpr fun a b h1 h2 h3 =>
      H ⟨g, hg⟩ a b h1 h2 (by simpa using Nat.lt_succ_iff.mp h3)

/-- `WF` as the conjunction of its named checks (R84). -/
theorem wf_iff (t : CipherTablesRaw) :
    t.wf = true ↔ wfCompression 128 t.ct1 = true ∧ wfCompression 116 t.ct2 = true ∧ wfCompression 108 t.ct3 = true ∧
      wfCompression 100 t.ct4 = true ∧ wfShift t.shift = true ∧ wfExp t.exp = true ∧ wfPermutation t.p1 = true ∧
      wfPermutation t.p2 = true := by
  simp [wf, wfSbox, and_assoc]

end CipherTablesRaw

namespace CipherTables

theorem ct1_legal (T : CipherTables) : CipherTablesRaw.wfCompression 128 T.raw.ct1 = true :=
  ((CipherTablesRaw.wf_iff T.raw).mp T.legal).1

theorem ct2_legal (T : CipherTables) : CipherTablesRaw.wfCompression 116 T.raw.ct2 = true :=
  ((CipherTablesRaw.wf_iff T.raw).mp T.legal).2.1

theorem ct3_legal (T : CipherTables) : CipherTablesRaw.wfCompression 108 T.raw.ct3 = true :=
  ((CipherTablesRaw.wf_iff T.raw).mp T.legal).2.2.1

theorem ct4_legal (T : CipherTables) : CipherTablesRaw.wfCompression 100 T.raw.ct4 = true :=
  ((CipherTablesRaw.wf_iff T.raw).mp T.legal).2.2.2.1

/-- Every entry of `CT2` is a position of a 116-bit sequence, and likewise for the others (R13, R85). -/
theorem ct2_lt (T : CipherTables) (j : Fin 108) : T.raw.ct2[j].toNat < 116 :=
  ((CipherTablesRaw.wfCompression_iff _ _).mp T.ct2_legal).1 j

theorem ct3_lt (T : CipherTables) (j : Fin 100) : T.raw.ct3[j].toNat < 108 :=
  ((CipherTablesRaw.wfCompression_iff _ _).mp T.ct3_legal).1 j

theorem ct4_lt (T : CipherTables) (j : Fin 88) : T.raw.ct4[j].toNat < 100 :=
  ((CipherTablesRaw.wfCompression_iff _ _).mp T.ct4_legal).1 j

end CipherTables

end Sys2Proof
end

