-- ==== Sys2Proof/Tests/Slice0.lean ====
section
/-! SUPPORT. Tests of the model against the spec's own vectors (95_test_vectors.md), the smoke tests of the
well-formedness checks, and for every statement with hypotheses a witness that meets them. Each test is about one
operation or one step. -/

namespace Sys2Proof.Tests

open Sys2Proof Sys2Proof.Machine

/-! ## The example table sets of 95_test_vectors.md §1 -/

/-- A raw table set from formulas for its entries. -/
def tablesFrom (c1 c2 c3 c4 sh ex q1 q2 : Nat → Nat) (sb : Nat → Nat → Nat → Nat) : CipherTablesRaw where
  ct1 := Vector.ofFn fun j => BitVec.ofNat 7 (c1 j)
  ct2 := Vector.ofFn fun j => BitVec.ofNat 7 (c2 j)
  ct3 := Vector.ofFn fun j => BitVec.ofNat 7 (c3 j)
  ct4 := Vector.ofFn fun j => BitVec.ofNat 7 (c4 j)
  shift := Vector.ofFn fun r => BitVec.ofNat 3 (sh r)
  exp := Vector.ofFn fun p => BitVec.ofNat 6 (ex p)
  sbox := Vector.ofFn fun i => Vector.ofFn fun r => Vector.ofFn fun c => BitVec.ofNat 8 (sb i r c)
  p1 := Vector.ofFn fun j => BitVec.ofNat 6 (q1 j)
  p2 := Vector.ofFn fun j => BitVec.ofNat 6 (q2 j)

/-- `T_ex`. -/
def texRaw : CipherTablesRaw :=
  tablesFrom (fun j => (5 * j + 3) % 128) (fun j => (7 * j + 1) % 116) (fun j => (5 * j + 2) % 108)
    (fun j => (3 * j + 7) % 100) (fun r => [1, 2, 3, 5].getD (r % 4) 0) (fun p => (7 * p + 3) % 64)
    (fun j => (9 * j + 4) % 64) (fun j => (13 * j + 7) % 64) (fun i r c => (29 * i + 7 * r + 13 * c + r * c) % 256)

/-- V-TG1a. -/
theorem test_wf_tex : texRaw.wf = true := by decide +kernel

def tex : CipherTables := ⟨texRaw, test_wf_tex⟩

/-- `T_ex` with another legal `SHIFT` (V-KS6, V-FE9). -/
def texWith (sh : Vector (BitVec 3) 42) (h : CipherTablesRaw.wfShift sh = true) : CipherTables where
  raw := { texRaw with shift := sh }
  legal := by
    have t := (CipherTablesRaw.wf_iff texRaw).mp test_wf_tex
    exact (CipherTablesRaw.wf_iff _).mpr
      ⟨t.1, t.2.1, t.2.2.1, t.2.2.2.1, h, t.2.2.2.2.2.1, t.2.2.2.2.2.2.1, t.2.2.2.2.2.2.2⟩

/-- V-FE9: a constant `SHIFT`. -/
def texShift2 : CipherTables := texWith (Vector.replicate 42 2) (by decide +kernel)

/-- V-KS6: `SHIFT[3]` changed from 5 to 1. -/
def texShift3 : CipherTables := texWith (texRaw.shift.set 3 1) (by decide +kernel)

/-- The plaintext "HelloMyMesIsThis" and the key "!MySuperKeyIsThe" (95_test_vectors.md §1). -/
def plainP : Block := 0x48656c6c6f4d794d6573497354686973#128
def keyK : CipherKey := 0x214d7953757065724b65794973546865#128

/-! ## Smoke tests: an ill-formed term for each check, refused by it -/

/-- A word with a bit of MBZ set (R67, 95_test_vectors.md §6). -/
theorem test_mbz_refused : mbzClear 0x00000011#32 = false ∧ wordWellFormed 0x00000011#32 = false := by decide
theorem test_mbz_top_refused : mbzClear 0x80000001#32 = false ∧ wordWellFormed 0x80000001#32 = false := by decide

/-- The first and the last reserved opcode (R67). -/
theorem test_opcode6_refused : opcodeAssigned 0x00000006#32 = false ∧ wordWellFormed 0x00000006#32 = false := by decide
theorem test_opcode15_refused : opcodeAssigned 0x0000000F#32 = false ∧ wordWellFormed 0x0000000F#32 = false := by decide

/-- V-TG2a: `CT1[1] = CT1[0]`. -/
theorem test_ct1_repeat_refused : CipherTablesRaw.wfCompression 128 (texRaw.ct1.set 1 3) = false := by decide +kernel

/-- V-TG2b: `CT2[0] = 116`. -/
theorem test_ct2_range_refused : CipherTablesRaw.wfCompression 116 (texRaw.ct2.set 0 116) = false := by decide +kernel

/-- V-TG2c: `CT4[0] = 100`. -/
theorem test_ct4_range_refused : CipherTablesRaw.wfCompression 100 (texRaw.ct4.set 0 100) = false := by decide +kernel

/-- V-TG2d: `SHIFT[0] = 4`, and `SHIFT[0] = 0`. -/
theorem test_shift_refused :
    CipherTablesRaw.wfShift (texRaw.shift.set 0 4) = false ∧ CipherTablesRaw.wfShift (texRaw.shift.set 0 0) = false := by
  decide +kernel

/-- V-TG2e, V-TG2f: a repeat inside group 0. -/
theorem test_exp_repeat_refused :
    CipherTablesRaw.wfExp (texRaw.exp.set 1 3) = false ∧ CipherTablesRaw.wfExp (texRaw.exp.set 10 3) = false := by
  decide +kernel

/-- V-TG2g: a repeat across groups is allowed. -/
theorem test_exp_across_groups : CipherTablesRaw.wfExp (texRaw.exp.set 11 3) = true := by decide +kernel

/-- V-TG2h. -/
theorem test_permutation_repeat_refused :
    CipherTablesRaw.wfPermutation (texRaw.p1.set 1 4) = false ∧
      CipherTablesRaw.wfPermutation (texRaw.p2.set 63 7) = false := by decide +kernel

/-! ## Decoding: the command words written out bit by bit (R64, R65) -/

theorem test_decode_nop : decode 0b00000000000000000000000000000000#32 = .command .nop := by decide
theorem test_decode_init : decode 0b00000000000000000000000000000001#32 = .command .init := by decide
theorem test_decode_derive : decode 0b00000000000000000000000000000010#32 = .command .derive := by decide
theorem test_decode_encrypt : decode 0b00000000000000000000000000000011#32 = .command .encrypt := by decide
theorem test_decode_decrypt : decode 0b00000000000000000000000000000100#32 = .command .decrypt := by decide
theorem test_decode_feval : decode 0b00000000000000000000000000000101#32 = .command .feval := by decide
theorem test_decode_reserved : decode 0b00000000000000000000000000000110#32 = .illegal := by decide
theorem test_decode_high_bit : decode 0b10000000000000000000000000000001#32 = .illegal := by decide

/-! ## The datapath (95_test_vectors.md §3 to §5) -/

/-- V-KS1a. -/
theorem test_rotl_bit0 : Bits.rotl (0x2000000000000#50) 5 = (1#50 <<< 4) := by decide +kernel

/-- V-KS1b. -/
theorem test_rotl : Bits.rotl (0x3ffff00000000#50) 5 = 0x3ffe00000001f#50 := by decide +kernel

/-- V-KS2. -/
theorem test_reduce : reduceKey tex keyK = 0x59d54eb0d1159d265cced185d#100 := by decide +kernel

/-- V-KS3, V-KS8: round 1 rotates by 2, not by the sum. -/
theorem test_roundKey1 : (schedule keyK tex)[1] = 0xaeae0dae6d629ce2e9027a#88 := by decide +kernel
/-- V-F1b, V-F1c: which end of a chunk is the row's most significant bit. -/
theorem test_lane_bit0 : (laneRow 0b10000000000#11, laneCol 0b10000000000#11) = (32, 0) := by decide +kernel
theorem test_lane_bit1 : (laneRow 0b01000000000#11, laneCol 0b01000000000#11) = (0, 16) := by decide +kernel

/-- V-F5, at three stages. -/
theorem test_mix :
    mix tex 0x48656c6c6f4d794d#64 0xdac539c5d204f58955d5c1#88 = 0xbde692a6f96c9ee032f66a#88 := by decide +kernel
theorem test_substitute : substitute tex 0xbde692a6f96c9ee032f66a#88 = 0xd50f675cc9b951a6#64 := by decide +kernel
theorem test_permute : permute tex 0xd50f675cc9b951a6#64 = 0xcee02e082f51fabf#64 := by decide +kernel

/-- V-FE1, round 0 of its trace. -/
theorem test_round0 :
    feistelRound tex 0xdac539c5d204f58955d5c1#88 (splitBlock plainP) =
      { left := 0x6573497354686973#64, right := 0x4584c5f7045ca232#64 } := by decide +kernel

/-- V-FE1, the last round of its trace and the output order. -/
theorem test_round41_output :
    joinHalves (feistelRound tex 0xaeae0dae6d629ce2e9027a#88
      { left := 0x059a0aec4cdf6029#64, right := 0x15b03862ee16c8dd#64 }) =
        0x96be25bac9cdd83015b03862ee16c8dd#128 := by decide +kernel

/-! ## One step on a small state (95_test_vectors.md §6 and the programs of §7) -/

/-- A state whose next event is a host write to, or a host read of, a register word. -/
def writing (r : Reg) (d : Word) (s : State) : State := { s with inputs := [.bus (.write r.addr 32 d)] }
def reading (r : Reg) (s : State) : State := { s with inputs := [.bus (.read r.addr 32)] }
def busWriting (a : Addr) (d : Word) (s : State) : State := { s with inputs := [.bus (.write a 32 d)] }

/-- The state after one step, and what shows of it. -/
def after (s : State) : Option State :=
  match step s with
  | .next t => some t
  | .fault _ => none
  | .refused _ => none
def statusAfter (s : State) : Option Word := (after s).map fun t => t.status.toWord
def answerAfter (s : State) : Option BusResponse := (after s).bind fun t => t.response

/-- Idle with the tables of `T_ex`. -/
def ready : State := { State.reset with tm := some tex, status := { Status.reset with tablesValid := true } }

/-- Busy with a command, the tables of `T_ex` in place. -/
def pending (i : Instr) : State :=
  { ready with status := { ready.status with busy := true }, pend := some i, key := keyK, din := plainP }

/-- Busy with INIT. -/
def initPending : State :=
  { State.reset with status := { Status.reset with busy := true }, pend := some .init, seed := 42 }

/-- FATAL after a failed INIT. -/
def fatalState : State := { State.reset with status := { Status.reset with done := true, fatal := true, err := 4 } }

theorem test_step_encrypt_not_init : statusAfter (State.reset.withFetchWord 32 3) = some 0x00000202#32 := by decide
theorem test_step_decrypt_not_init : statusAfter (State.reset.withFetchWord 32 4) = some 0x00000202#32 := by decide
theorem test_step_derive_not_init : statusAfter (State.reset.withFetchWord 32 2) = some 0x00000202#32 := by decide
theorem test_step_feval_not_init : statusAfter (State.reset.withFetchWord 32 5) = some 0x00000202#32 := by decide
theorem test_step_init_accepted : statusAfter (State.reset.withFetchWord 32 1) = some 0x00000001#32 := by decide
theorem test_step_nop : statusAfter (State.reset.withFetchWord 32 0) = some 0x00000002#32 := by decide
theorem test_step_illegal : statusAfter (writing .cmd 0x00000011#32 State.reset) = some 0x00000102#32 := by decide
theorem test_step_init_locked : statusAfter (writing .cmd 1 ready) = some 0x00000306#32 := by decide
theorem test_step_fatal_before_not_init : statusAfter (writing .cmd 2 fatalState) = some 0x00000512#32 := by decide
theorem test_step_illegal_before_fatal : statusAfter (writing .cmd 15 fatalState) = some 0x00000112#32 := by decide
theorem test_step_nop_while_fatal : statusAfter (writing .cmd 0 fatalState) = some 0x00000012#32 := by decide

/-- Programs 1, 5 and 6: STATUS after each completion. -/
theorem test_encrypt_status : statusAfter (pending .encrypt) = some 0x0000000E#32 := by decide
theorem test_decrypt_status : statusAfter (pending .decrypt) = some 0x0000000E#32 := by decide
theorem test_derive_status : statusAfter (pending .derive) = some 0x0000000E#32 := by decide
theorem test_feval_status : statusAfter (pending .feval) = some 0x00000006#32 := by decide

/-- V-TG1a and V-TG2a: INIT's two ends, on generated sets of either kind. -/
theorem test_init_installs :
    ((installTables texRaw initPending).1.finish (installTables texRaw initPending).2).status.toWord =
      0x00000006#32 := by
  have h : installTables texRaw initPending = _ := dif_pos test_wf_tex
  rw [h]
  decide
theorem test_init_fails :
    ((installTables { texRaw with shift := texRaw.shift.set 0 4 } initPending).1.finish
      (installTables { texRaw with shift := texRaw.shift.set 0 4 } initPending).2).status.toWord = 0x00000412#32 := by
  have hw : ¬ ({ texRaw with shift := texRaw.shift.set 0 4 } : CipherTablesRaw).wf = true := fun h => by
    have := ((CipherTablesRaw.wf_iff _).mp h).2.2.2.2.1
    rw [test_shift_refused.1] at this
    cases this
  have h : installTables { texRaw with shift := texRaw.shift.set 0 4 } initPending = _ := dif_neg hw
  rw [h]
  decide

/-- V-BUS1 to V-BUS8, V-IRQ1, V-IRQ2, and steps 6 and 10 of program 3. -/
theorem test_misaligned : answerAfter (busWriting 0x00002 1 State.reset) = some .berr := by decide
theorem test_reserved : answerAfter (busWriting 0x0010C 1 State.reset) = some .berr := by decide
theorem test_readOnly_while_busy :
    answerAfter (writing (.dout 0) 1 (pending .encrypt)) = some .berr ∧
      statusAfter (writing (.dout 0) 1 (pending .encrypt)) = some 0x00000005#32 := by decide
theorem test_ctrl_both_bits :
    (after (writing .ctrl 3 { ready with irqEn := true })).map (fun t => (t.irqEn, t.status.toWord)) =
      some (false, 0) := by decide
theorem test_sbox_window : answerAfter (reading (.sbox 7 63 31) ready) = some (.data 0x000000b8#32) := by
  decide +kernel
theorem test_sbox_address : Reg.ofAddr 0x1210C = some (.sbox 1 2 3) ∧ (Reg.sbox 1 2 3).addr = 0x1210C := by decide
theorem test_frk2_reserved_byte :
    (after (writing (.frk 2) 0x55d5c1ff#32 State.reset)).map (fun t => t.readReg (.frk 2)) =
      some (some 0x55d5c100#32) := by decide +kernel
theorem test_key_byte_order :
    (after (writing (.key 0) 0x214d7953#32 State.reset)).map (fun t => t.key.toNat / 2 ^ 96) = some 0x214d7953 := by
  decide +kernel
theorem test_seed_high : (after (writing .seedHi 1 { State.reset with seed := 0x2A })).map (fun t => t.seed) =
    some 0x000000010000002A#64 := by decide
theorem test_irq_rises :
    (after (writing .ctrl 1 { ready with status := { ready.status with done := true } })).map (fun t => t.irq) =
      some true := by decide
theorem test_irq_drops :
    (after (writing .status 2 { ready with irqEn := true, status := { ready.status with done := true } })).map
      (fun t => t.irq) = some false := by decide
theorem test_overrun : (after (writing (.key 0) 0xDEADBEEF#32 initPending)).map (fun t => (t.status.toWord, t.key)) =
    some (0x00000021#32, 0) := by decide

/-- Program 1, step 3: the encoding of `SETSEED 42`, and of `WAIT`. -/
theorem test_program_encoding :
    programEncoding ((Pseudo.setSeed 42).expand ++ Pseudo.wait.expand) =
      [.write 0x00010 32 0x0000002A#32, .write 0x00014 32 0, .read 0x00008 32] := by decide

/-- `WR SEED_HI, 1`, run by the Host agent. -/
theorem test_runProgram : (runProgram 3 [.wr Reg.seedHi.addr 1, .rd Reg.seedHi.addr (some 1), .wre 0x00002 1] State.reset).isSome =
    true := by decide

/-! ## Witnesses: for each statement with hypotheses, a state and operands that meet them -/

theorem ready_inv : ready.Inv := by
  constructor <;> simp [ready, State.reset, Status.reset]

theorem pending_inv : (pending .encrypt).Inv := by
  constructor <;> simp [pending, ready, State.reset, Status.reset]

theorem initPending_inv : initPending.Inv := by
  constructor <;> simp [initPending, State.reset, Status.reset]

theorem witness_DecoderIsTotalAndExact :
    (writing .cmd 6 ready).nextWrites .cmd 6 ∧ (writing .cmd 6 ready).status.busy = false ∧ decode 6 = .illegal ∧
      (writing .cmd 16 ready).nextWrites .cmd 16 ∧ decode 16 = .illegal ∧ decode 0xFFFFFFFF#32 = .illegal :=
  ⟨⟨[], rfl⟩, rfl, rfl, ⟨[], rfl⟩, rfl, rfl⟩

theorem witness_CommandsAndAddressesRoundTrip :
    decode 5 = .command .feval ∧ aligned 0x1FFFC = true ∧ Reg.ofAddr 0x1FFFC = some (.sbox 7 63 31) ∧
      aligned 0 = true ∧ Reg.ofAddr 0 = some .id ∧ aligned 0x0039C = true ∧ Reg.ofAddr 0x0039C = none ∧
      Reg.ofAddr 0x00398 = some (.rkw 41 2) := by decide

/-- The first and the last word of every reserved range, and the words around them. -/
theorem witness_AddressMapIsExact :
    ([0x00018, 0x0001C, 0x00058, 0x0005C, 0x0006C, 0x00078, 0x000FC, 0x0010C, 0x0039C, 0x003A0, 0x003FC, 0x005D0,
        0x005FC, 0x007B0, 0x007FC, 0x00990, 0x009FC, 0x00B60, 0x00BFC, 0x00CA8, 0x00DFC, 0x00F60, 0x00FFC, 0x01100,
        0x011FC, 0x01300, 0x0FFFC] : List Addr).all (fun a => aligned a && (Reg.ofAddr a).isNone) = true ∧
    ([0x00014, 0x00020, 0x00054, 0x00060, 0x00068, 0x00070, 0x00074, 0x00100, 0x00108, 0x00110, 0x00398, 0x00400,
        0x005CC, 0x00600, 0x007AC, 0x00800, 0x0098C, 0x00A00, 0x00B5C, 0x00C00, 0x00CA4, 0x00E00, 0x00F5C, 0x01000,
        0x010FC, 0x01200, 0x012FC, 0x10000, 0x1FFFC] : List Addr).all
          (fun a => aligned a && (Reg.ofAddr a).isSome) = true := by decide +kernel

theorem witness_StepRunsPresentedCommand :
    (writing .cmd 3 ready).nextWrites .cmd 3 ∧ (writing .cmd 3 ready).status.busy = false ∧
      decode 3 = .command .encrypt := ⟨⟨[], rfl⟩, rfl, rfl⟩

theorem witness_StepRunsPendingCommand :
    (pending .encrypt).coreNext ∧ (pending .encrypt).status.busy = true ∧ (pending .encrypt).pend = some .encrypt ∧
      ({ ready with inputs := [.core] } : State).coreNext ∧
      ({ ready with inputs := [.core] } : State).status.busy = false := ⟨.inl rfl, rfl, rfl, .inr rfl, rfl⟩

theorem witness_PlacedWordRunsNext : ready.status.busy = false ∧ decodeTableWord 32 5 = some .feval := ⟨rfl, rfl⟩

/-- Each clause of R123, and a transaction that meets none of them. -/
theorem witness_BusErrorsAreExactAndSilent :
    (busWriting 0x00002 1 ready).inputs.head? = some (.bus (.write 0x00002 32 1)) ∧ (0x00002#17).toNat % 4 ≠ 0 ∧
      Reg.ofAddr 0x00018 = none ∧ Reg.ofAddr 0x00000 = some .id ∧ Reg.ofAddr 0x0004C = some (.dout 3) ∧
      Reg.ofAddr 0x00074 = some (.fout 1) ∧ Reg.ofAddr 0x00398 = some (.rkw 41 2) ∧
      Reg.ofAddr 0x00400 = some (.ct1 0) ∧ (Reg.ct1 0).offset = 0x00400 ∧ (Reg.sbox 7 63 31).offset = 0x1FFFC ∧
      ¬((0x0006C#17).toNat % 4 ≠ 0 ∨ (16 : Nat) = 32 ∨ Reg.ofAddr 0x00068 = none ∨
        ∃ r, Reg.ofAddr 0x00068 = some r ∧ (r = .id ∨ (∃ w, r = .dout w) ∨ (∃ w, r = .fout w) ∨
          (∃ q w, r = .rkw q w) ∨ 0x00400 ≤ r.offset)) := by
  refine ⟨rfl, by decide, by decide, by decide, by decide, by decide, by decide, by decide, by decide, by decide, ?_⟩
  have h : Reg.ofAddr 0x00068 = some (.frk 2) := by decide
  rw [h]
  simp [Reg.offset]

theorem witness_ReadsReturnRegisters :
    (∀ r ∈ [Reg.id, .ctrl, .cmd, .status, .seedLo, .seedHi, .key 3, .din 3, .dout 3, .fin 1, .frk 2, .fout 1, .rkw 41 2,
      .sbox 7 63 31], (reading r ready).nextReads r) ∧
      ({ ready with inputs := [.bus (.read 0x0FFFC 32)] } : State).inputs.head? = some (.bus (.read 0x0FFFC 32)) ∧
      aligned 0x0FFFC = true ∧ Reg.ofAddr 0x0FFFC = none :=
  ⟨fun _ _ => ⟨[], rfl⟩, rfl, by decide, by decide⟩

theorem witness_SeedRegisterWords :
    (reading .seedLo ready).nextReads .seedLo ∧ (reading .seedHi ready).nextReads .seedHi ∧
      (writing .seedLo 0xFFFFFFFF#32 ready).nextWrites .seedLo 0xFFFFFFFF#32 ∧
      (writing .seedHi 0xFFFFFFFF#32 ready).nextWrites .seedHi 0xFFFFFFFF#32 ∧ ready.status.busy = false :=
  ⟨⟨[], rfl⟩, ⟨[], rfl⟩, ⟨[], rfl⟩, ⟨[], rfl⟩, rfl⟩

/-- The last bit of the last word, and the last bit of an 88-bit value. -/
theorem witness_WordPackingOfSequences : 31 < 32 ∧ 32 * 2 + 23 < 88 ∧ ¬ 32 * 2 + 24 < 88 ∧ 87 / 32 = 2 := by decide

theorem witness_IdleDataWriteStoresOneWord :
    ∀ r ∈ [Reg.seedLo, .seedHi, .key 0, .key 3, .din 0, .din 3, .fin 0, .fin 1, .frk 0, .frk 2],
      (writing r 0xFFFFFFFF#32 ready).nextWrites r 0xFFFFFFFF#32 ∧ (writing r 0xFFFFFFFF#32 ready).status.busy = false :=
  fun _ _ => ⟨⟨[], rfl⟩, rfl⟩

theorem witness_RepeatedReadsAgree :
    ∃ s s1 : State, s.nextReads .status ∧ s.readReg .status = some 0x00000004#32 ∧ step s = .next s1 ∧
      s1.nextReads .status :=
  ⟨{ ready with inputs := [.bus (.read Reg.status.addr 32), .bus (.read Reg.status.addr 32)] }, _, ⟨_, rfl⟩, rfl, rfl,
    ⟨_, rfl⟩⟩

/-- The window with valid round keys, without them, and while each command that writes them is pending. -/
theorem witness_RoundKeyWindowReads :
    let valid : State := { ready with status := { ready.status with rkValid := true } }
    (reading (.rkw 41 2) valid).nextReads (.rkw 41 2) ∧ (reading (.rkw 41 2) valid).status.rkValid = true ∧
      (reading (.rkw 41 2) valid).status.busy = false ∧ (reading (.rkw 0 0) ready).nextReads (.rkw 0 0) ∧
      (reading (.rkw 0 0) ready).status.rkValid = false ∧
      ∀ i ∈ [Instr.derive, .encrypt, .decrypt], (reading (.rkw 0 0) (pending i)).status.busy = true ∧
        (reading (.rkw 0 0) (pending i)).pend = some i := by
  refine ⟨⟨[], rfl⟩, rfl, rfl, ⟨[], rfl⟩, rfl, ?_⟩
  simp [reading, pending, ready]

theorem witness_TableWindowReads :
    0x00400 ≤ (Reg.ct1 0).offset ∧ (reading (.ct1 0) ready).nextReads (.ct1 0) ∧
      (reading (.ct1 0) ready).status.tablesValid = true ∧ (reading (.ct1 0) ready).tm = some tex ∧
      0x00400 ≤ (Reg.sbox 7 63 31).offset ∧ (reading (.sbox 7 63 31) State.reset).nextReads (.sbox 7 63 31) ∧
      (reading (.sbox 7 63 31) State.reset).status.tablesValid = false :=
  ⟨by decide, ⟨[], rfl⟩, rfl, rfl, by decide, ⟨[], rfl⟩, rfl⟩

/-- A step that is no CTRL read, one that is, and one that stops. -/
theorem witness_ControlRegisterWrites :
    ((writing .ctrl 1 (pending .encrypt)).nextWrites .ctrl 1 ∧ (1#32).getLsbD 1 = false ∧
      (writing .ctrl 3 (pending .encrypt)).nextWrites .ctrl 3 ∧ (3#32).getLsbD 1 = true ∧
      ready.readReg .ctrl = some 0) ∧
    (∃ s' : State, step ready = .next s' ∧ ¬ ready.nextReads .ctrl) ∧
    (∃ s' : State, step (reading .ctrl ready) = .next s' ∧ (reading .ctrl ready).nextReads .ctrl) ∧
    step (pending .nop) = .fault .noCompletion := by
  refine ⟨⟨⟨[], rfl⟩, rfl, ⟨[], rfl⟩, rfl, rfl⟩, ⟨_, rfl, ?_⟩, ⟨_, rfl, ⟨[], rfl⟩⟩, rfl⟩
  rintro ⟨rest, h⟩
  cases h

theorem witness_StatusWriteClearsDoneAndOvr : (writing .status 0x22 ready).nextWrites .status 0x22 := ⟨[], rfl⟩

theorem witness_OverrunIsRecordedAndSticky :
    (∀ r ∈ [Reg.cmd, .seedLo, .seedHi, .key 3, .din 3, .fin 1, .frk 2],
      (writing r 1 (pending .encrypt)).nextWrites r 1 ∧ (writing r 1 (pending .encrypt)).status.busy = true) ∧
    ∃ s s' : State, s.status.ovr = true ∧ step s = .next s' ∧ s.resetsNext = false :=
  ⟨fun _ _ => ⟨⟨[], rfl⟩, rfl⟩, { (pending .encrypt).overrun with inputs := [] }, _, rfl, rfl, rfl⟩

/-- A rise, the acceptance of INIT and of a command that needs tables, a fall, a reset and a Core step while idle. -/
theorem witness_BusyFromAcceptanceToCompletion :
    (∃ s' : State, step (writing .cmd 1 State.reset) = .next s' ∧ (writing .cmd 1 State.reset).status.busy = false ∧
      s'.status.busy = true) ∧
    ((writing .cmd 1 State.reset).nextWrites .cmd 1 ∧ decode 1 = .command .init ∧
      (writing .cmd 1 State.reset).status.fatal = false ∧
      (Instr.init = .init ↔ (writing .cmd 1 State.reset).status.tablesValid = false)) ∧
    ((writing .cmd 5 ready).nextWrites .cmd 5 ∧ (writing .cmd 5 ready).status.busy = false ∧
      decode 5 = .command .feval ∧ (writing .cmd 5 ready).status.fatal = false ∧
      (Instr.feval = .init ↔ (writing .cmd 5 ready).status.tablesValid = false)) ∧
    (∃ s' : State, step (pending .encrypt) = .next s' ∧ (pending .encrypt).status.busy = true ∧
      s'.status.busy = false) ∧
    (∃ s' : State, step (writing .ctrl 2 (pending .encrypt)) = .next s' ∧
      (writing .ctrl 2 (pending .encrypt)).resetsNext = true) ∧
    ∃ s' : State, step ready = .next s' ∧ ready.coreNext :=
  ⟨⟨_, rfl, rfl, rfl⟩, ⟨⟨[], rfl⟩, rfl, rfl, by decide⟩, ⟨⟨[], rfl⟩, rfl, rfl, rfl, by decide⟩, ⟨_, rfl, rfl, rfl⟩,
    ⟨_, rfl, by decide⟩, _, rfl, .inl rfl⟩

theorem witness_TablesValidOnlyFromInitToReset :
    (∃ s' : State, step initPending = .next s' ∧ initPending.resetsNext = false ∧ initPending.completesNext .init) ∧
      (∃ s' : State, step (writing .ctrl 2 ready) = .next s' ∧ (writing .ctrl 2 ready).resetsNext = true) ∧
      ∃ s' : State, (pending .encrypt).Inv ∧ step (pending .encrypt) = .next s' ∧
        (pending .encrypt).status.tablesValid = true ∧ (pending .encrypt).resetsNext = false :=
  ⟨⟨_, rfl, rfl, .inl rfl, rfl, rfl⟩, ⟨_, rfl, by decide⟩, _, pending_inv, rfl, rfl, rfl⟩

theorem witness_RoundKeysValidFromDerivationToReset :
    (∀ i ∈ [Instr.derive, .encrypt, .decrypt],
      (after (pending i)).isSome = true ∧ (pending i).completesNext i ∧ (pending i).resetsNext = false) ∧
      ∃ s' : State, step ready = .next s' ∧ ready.resetsNext = false ∧ ready.status.busy = false := by
  refine ⟨?_, _, rfl, rfl, rfl⟩
  intro i hi
  simp only [List.mem_cons, List.not_mem_nil, or_false] at hi
  rcases hi with rfl | rfl | rfl <;> exact ⟨rfl, ⟨.inl rfl, rfl, rfl⟩, rfl⟩

theorem witness_FatalFromFailedInitToReset :
    (∃ s' : State, step initPending = .next s' ∧ initPending.resetsNext = false ∧ initPending.completesNext .init) ∧
      (∃ s' : State, step { fatalState with inputs := [.resetPin] } = .next s' ∧
        ({ fatalState with inputs := [.resetPin] } : State).resetsNext = true) ∧
      fatalState.status.fatal = true ∧ fatalState.status.busy = false ∧ Instr.init ≠ .nop :=
  ⟨⟨_, rfl, rfl, .inl rfl, rfl, rfl⟩, ⟨_, rfl, rfl⟩, rfl, rfl, by decide⟩

/-- Each clause: a reset, a completion, a word written to CMD while idle, a STATUS write, and a step that is none. -/
theorem witness_DoneAndErrRecordTheOutcome :
    ((after (writing .ctrl 2 fatalState)).isSome = true ∧ (writing .ctrl 2 fatalState).resetsNext = true) ∧
    ((after initPending).isSome = true ∧ initPending.coreNext ∧ initPending.status.busy = true) ∧
    ((after (writing .cmd 2 fatalState)).isSome = true ∧ (writing .cmd 2 fatalState).nextWrites .cmd 2 ∧
      (writing .cmd 2 fatalState).status.busy = false) ∧
    ((after (writing .status 2 fatalState)).isSome = true ∧ (writing .status 2 fatalState).nextWrites .status 2) ∧
    ∃ s' : State, step fatalState = .next s' ∧ fatalState.resetsNext = false ∧
      ¬(fatalState.coreNext ∧ fatalState.status.busy = true) ∧
      ¬(fatalState.status.busy = false ∧ ∃ w, fatalState.nextWrites .cmd w) ∧ ¬∃ d, fatalState.nextWrites .status d := by
  refine ⟨⟨rfl, by decide⟩, ⟨rfl, .inl rfl, rfl⟩, ⟨rfl, ⟨[], rfl⟩, rfl⟩, ⟨rfl, ⟨[], rfl⟩⟩, _, rfl, rfl, ?_, ?_, ?_⟩
  · rintro ⟨_, h⟩
    cases h
  · rintro ⟨_, w, rest, h⟩
    cases h
  · rintro ⟨d, rest, h⟩
    cases h

/-- Idle with DONE and IRQ_EN, so that irq is asserted. -/
def asserted : State := { ready with irqEn := true, status := { ready.status with done := true } }

/-- The rises of InterruptRisesAndDrops: a completion, a NOP and a rejection, and IRQ_EN set while DONE is 1. -/
theorem witness_InterruptRisesAndDrops_rises :
    (∃ s s' : State, step s = .next s' ∧ s.coreNext ∧ s.status.busy = true ∧ s.irq = false ∧ s'.irq = true) ∧
    (∀ w ∈ [0#32, 1, 7], (writing .cmd w { ready with irqEn := true }).nextWrites .cmd w ∧
      (writing .cmd w { ready with irqEn := true }).status.busy = false ∧
      (after (writing .cmd w { ready with irqEn := true })).map (fun t => (t.status.busy, t.irq)) =
        some (false, true)) ∧
    ∃ s s' : State, step s = .next s' ∧ s.nextWrites .ctrl 1 ∧ (1#32).getLsbD 1 = false ∧ (1#32).getLsbD 0 = true ∧
      s.irq = false ∧ s'.irq = true := by
  refine ⟨⟨{ pending .encrypt with irqEn := true }, _, rfl, .inl rfl, rfl, rfl, rfl⟩, ?_,
    ⟨writing .ctrl 1 { asserted with irqEn := false }, _, rfl, ⟨[], rfl⟩, rfl, rfl, rfl, rfl⟩⟩
  intro w hw
  simp only [List.mem_cons, List.not_mem_nil, or_false] at hw
  rcases hw with rfl | rfl | rfl <;> exact ⟨⟨[], rfl⟩, rfl, rfl⟩

/-- The four drops of InterruptRisesAndDrops: a STATUS write of bit 1, a CTRL write of 0 to bit 0, an acceptance, and a
reset. -/
theorem witness_InterruptRisesAndDrops_drops :
    asserted.irq = true ∧
    (∃ s' : State, step (writing .status 2 asserted) = .next s' ∧ (writing .status 2 asserted).nextWrites .status 2 ∧
      (2#32).getLsbD 1 = true ∧ s'.irq = false) ∧
    (∃ s' : State, step (writing .ctrl 0 asserted) = .next s' ∧ (writing .ctrl 0 asserted).nextWrites .ctrl 0 ∧
      (0#32).getLsbD 0 = false ∧ s'.irq = false) ∧
    (∃ s' : State, step (writing .cmd 3 asserted) = .next s' ∧ (writing .cmd 3 asserted).nextWrites .cmd 3 ∧
      (writing .cmd 3 asserted).status.busy = false ∧ s'.status.busy = true ∧ s'.irq = false) ∧
    ∃ s' : State, step { asserted with inputs := [.resetPin] } = .next s' ∧
      ({ asserted with inputs := [.resetPin] } : State).resetsNext = true ∧ s'.irq = false :=
  ⟨rfl, ⟨_, rfl, ⟨[], rfl⟩, rfl, rfl⟩, ⟨_, rfl, ⟨[], rfl⟩, rfl, rfl⟩, ⟨_, rfl, ⟨[], rfl⟩, rfl, rfl, rfl⟩, _, rfl, rfl,
    rfl⟩

theorem witness_PresentationChecksInOrder :
    (∀ w ∈ [0#32, 1, 2, 7], (writing .cmd w ready).nextWrites .cmd w ∧ (writing .cmd w ready).status.busy = false) ∧
      (writing .cmd 2 fatalState).nextWrites .cmd 2 ∧ (writing .cmd 2 fatalState).status.busy = false ∧
      (writing .cmd 2 State.reset).status.tablesValid = false ∧
      (writing .cmd 7 (pending .encrypt)).nextWrites .cmd 7 ∧ (writing .cmd 7 (pending .encrypt)).status.busy = true :=
  ⟨fun _ _ => ⟨⟨[], rfl⟩, rfl⟩, ⟨[], rfl⟩, rfl, rfl, ⟨[], rfl⟩, rfl⟩

theorem witness_NopEndsAtOnce :
    fatalState.status.busy = false ∧ (writing .cmd 0 (pending .encrypt)).nextWrites .cmd 0x00000000#32 ∧
      (writing .cmd 0 (pending .encrypt)).status.busy = true := ⟨rfl, ⟨[], rfl⟩, rfl⟩

theorem witness_OtherCommandWhilePendingIsDropped :
    (pending .encrypt).status.busy = true ∧ (pending .encrypt).pend ≠ some .derive := ⟨rfl, by simp [pending]⟩

theorem witness_UnreachableCompletionsStop :
    (∀ i ∈ [Instr.derive, .encrypt, .decrypt, .feval],
      ({ pending i with tm := none } : State).status.busy = true ∧ ({ pending i with tm := none } : State).pend = some i ∧
        ({ pending i with tm := none } : State).tm = none) ∧
      (pending .nop).status.busy = true ∧ (pending .nop).pend = some .nop := ⟨fun _ _ => ⟨rfl, rfl, rfl⟩, rfl, rfl⟩

theorem witness_OperandsFixedWhilePending :
    ∃ s' : State, (writing (.key 0) 1 (pending .encrypt)).status.busy = true ∧
      step (writing (.key 0) 1 (pending .encrypt)) = .next s' ∧ s'.status.busy = true := ⟨_, rfl, rfl, rfl⟩

theorem witness_OutputsChangeOnlyAtCompletion :
    ∃ s' : State, step (pending .encrypt) = .next s' ∧ (pending .encrypt).resetsNext = false := ⟨_, rfl, rfl⟩

theorem witness_PendingCommandCompletes :
    (writing (.key 0) 1 (pending .encrypt)).Inv ∧ (writing (.key 0) 1 (pending .encrypt)).status.busy = true ∧
      ∀ e ∈ (writing (.key 0) 1 (pending .encrypt)).inputs, e.resets = false := by
  refine ⟨?_, rfl, ?_⟩
  · constructor <;> simp [writing, pending, ready, State.reset, Status.reset]
  · decide

theorem witness_InitChecksAndCompletes :
    ready.status.busy = false ∧ initPending.status.busy = true ∧ initPending.pend = some .init := ⟨rfl, rfl, rfl⟩

theorem witness_DeriveChecksAndCompletes :
    ready.status.busy = false ∧ (pending .derive).status.busy = true ∧ (pending .derive).pend = some .derive ∧
      (pending .derive).tm = some tex := ⟨rfl, rfl, rfl, rfl⟩

theorem witness_EncryptChecksAndCompletes :
    ready.status.busy = false ∧ (pending .encrypt).status.busy = true ∧ (pending .encrypt).pend = some .encrypt ∧
      (pending .encrypt).tm = some tex := ⟨rfl, rfl, rfl, rfl⟩

theorem witness_DecryptChecksAndCompletes :
    ready.status.busy = false ∧ (pending .decrypt).status.busy = true ∧ (pending .decrypt).pend = some .decrypt ∧
      (pending .decrypt).tm = some tex := ⟨rfl, rfl, rfl, rfl⟩

theorem witness_FevalChecksAndCompletes :
    ready.status.busy = false ∧ (pending .feval).status.busy = true ∧ (pending .feval).pend = some .feval ∧
      (pending .feval).tm = some tex := ⟨rfl, rfl, rfl, rfl⟩

theorem witness_TablesAndCiphertextDeterministic :
    (∃ s1 s2 t1 t2 : State, s1 ≠ s2 ∧ s1.status.busy = true ∧ s2.status.busy = true ∧ s1.pend = some .init ∧
      s2.pend = some .init ∧ s1.seed = s2.seed ∧ exec .init s1 = .next t1 ∧ exec .init s2 = .next t2) ∧
      ∃ s1 s2 t1 t2 : State, s1 ≠ s2 ∧ s1.status.busy = true ∧ s2.status.busy = true ∧ s1.pend = some .encrypt ∧
        s2.pend = some .encrypt ∧ s1.key = s2.key ∧ s1.din = s2.din ∧ s1.tm = s2.tm ∧ exec .encrypt s1 = .next t1 ∧
        exec .encrypt s2 = .next t2 := by
  refine ⟨⟨initPending, { initPending with draws := 1 }, _, _, ?_, rfl, rfl, rfl, rfl, rfl, rfl, rfl⟩,
    pending .encrypt, { pending .encrypt with draws := 1 }, _, _, ?_, rfl, rfl, rfl, rfl, rfl, rfl, rfl, rfl, rfl⟩
  · intro h
    exact absurd (congrArg State.draws h) (by decide)
  · intro h
    exact absurd (congrArg State.draws h) (by simp [pending, ready, State.reset])

/-- A table set built as R83 says: each table is the head of the identity, which is a shuffle of itself. -/
def documented : CipherTablesRaw :=
  tablesFrom id id id id (fun _ => 1) (fun p => p % 64) id id (fun _ _ _ => 0)

theorem witness_DocumentedConstructionIsWellFormed : documented.BuiltAsDocumented := by
  refine ⟨⟨_, List.Perm.refl _, by decide +kernel⟩, ⟨_, List.Perm.refl _, by decide +kernel⟩,
    ⟨_, List.Perm.refl _, by decide +kernel⟩, ⟨_, List.Perm.refl _, by decide +kernel⟩, by decide +kernel, ?_,
    by decide +kernel, by decide +kernel⟩
  exact fun g a b h1 h2 h3 =>
    (CipherTablesRaw.wfExp_iff documented.exp).mp (by decide +kernel) g a b h1 h2 h3

/-- V-KS6: two table sets that differ in `SHIFT[3]` alone; rounds 0 and 3 of them have one amount. -/
theorem witness_RoundKeyDependsOnOwnShift :
    texShift3.raw = { tex.raw with shift := texShift3.raw.shift } ∧ tex.raw.shift[(0 : Fin 42)] = texShift3.raw.shift[(3 : Fin 42)] := by
  refine ⟨rfl, ?_⟩
  decide +kernel

theorem witness_ExpansionAndKeyMixing :
    11 * (7 : Fin 8).val ≤ (77 : Fin 88).val ∧ (77 : Fin 88) < 87 ∧ (87 : Fin 88).val ≤ 11 * (7 : Fin 8).val + 10 := by
  decide

theorem witness_PermutationsInOrder :
    ∃ j a : Fin 64, tex.raw.p2[j].toNat = a.val ∧ ∃ i : Fin 8, tex.raw.p1[a].toNat / 8 = i.val :=
  ⟨63, tex.raw.p2[(63 : Fin 64)].toFin, rfl, ⟨tex.raw.p1[tex.raw.p2[(63 : Fin 64)].toFin].toNat / 8, by omega⟩, rfl⟩

theorem getMsbD_allOnes (n i : Nat) (h : i < n) : (BitVec.allOnes n).getMsbD i = true := by
  rw [BitVec.getMsbD, BitVec.getLsbD_allOnes]
  simp
  omega

/-- V-F3 and V-F4: different arguments with one mixed value, and mixed values that agree on a lane. -/
theorem witness_OutputBitDependsOnOneLane :
    Bits.gather tex.raw.exp (BitVec.allOnes 64) ^^^ (0 : RoundKey) =
        Bits.gather tex.raw.exp (0 : HalfBlock) ^^^ BitVec.allOnes 88 ∧
      ∀ t : Fin 11, (1#88).getMsbD (11 * (6 : Fin 8).val + t.val) = (0#88).getMsbD (11 * (6 : Fin 8).val + t.val) := by
  refine ⟨Bits.ext fun p => ?_, by decide⟩
  rw [BitVec.getMsbD_xor, BitVec.getMsbD_xor, Bits.getMsbD_gather, Bits.getMsbD_gather,
    getMsbD_allOnes 64 _ tex.raw.exp[p].isLt, getMsbD_allOnes 88 _ p.isLt]
  simp

theorem witness_FeistelRoundsInKeyOrder : (id : Fin 42 → Fin 42) = id ∧ (Fin.rev : Fin 42 → Fin 42) = Fin.rev ∧
    (Fin.rev : Fin 42 → Fin 42) ≠ id := ⟨rfl, rfl, fun h => absurd (congrFun h 0) (by decide)⟩

theorem witness_DecryptionInvertsEncryption :
    ready.status.busy = false ∧ ready.status.fatal = false ∧ ready.status.tablesValid = true ∧ ready.tm = some tex :=
  ⟨rfl, rfl, rfl, rfl⟩

/-- V-FE7 and V-FE9. -/
theorem witness_PalindromicScheduleIsInvolution :
    (∀ r : Fin 42, (Vector.replicate 42 (5 : RoundKey))[r] = (Vector.replicate 42 (5 : RoundKey))[r.rev]) ∧
      ∀ r : Fin 42, texShift2.raw.shift[r] = texShift2.raw.shift[r.rev] := by
  refine ⟨fun r => by simp, fun r => ?_⟩
  have h : texShift2.raw.shift = Vector.replicate 42 2 := rfl
  rw [h]
  simp

theorem witness_ResetValues : ∃ t : State, t = (pending .encrypt).performReset ∧ 0x00400 ≤ (Reg.ct1 0).offset :=
  ⟨_, rfl, by decide⟩

theorem witness_ResetSourcesAgree :
    ({ pending .encrypt with inputs := [.resetPin] } : State).inputs.head? = some .resetPin ∧
      (writing .ctrl 2 (pending .encrypt)).nextWrites .ctrl 2 ∧ (2#32).getLsbD 1 = true := ⟨rfl, ⟨[], rfl⟩, rfl⟩

theorem witness_EveryStepKeepsInv :
    (∃ s' : State, (pending .encrypt).Inv ∧ step (pending .encrypt) = .next s') ∧
      ∃ s' : State, initPending.Inv ∧ step initPending = .next s' :=
  ⟨⟨_, pending_inv, rfl⟩, _, initPending_inv, rfl⟩

theorem witness_NoStepStopsUnderInv : (writing .cmd 3 ready).Inv := by
  constructor <;> simp [writing, ready, State.reset, Status.reset]

theorem witness_OperandLoadsStoreOperands : ready.status.busy = false := rfl

end Sys2Proof.Tests
end

section
/-! SUPPORT. What the next event decides about the step (10_state.md R18, 20_memory.md R55, 70_reset_and_hazards.md
R137): the step of each event is one equation. -/

namespace Sys2Proof.Machine

section NextEvent

variable {s : State} {r : Reg} {d : Word} {i j : Instr}

/-- A read transaction that reaches a register word is the next event of `nextReads` (R54). -/
theorem nextReads_of_target {a : Addr} {bits : Nat} (e : s.inputs.head? = some (.bus (.read a bits)))
    (h : target a bits = some r) : s.nextReads r := by
  obtain ⟨rfl, rfl⟩ := target_some h
  obtain ⟨rest, hi⟩ := List.head?_eq_some_iff.mp e
  exact ⟨rest, hi⟩

theorem coreNext_of_head (h : s.inputs.head? = none ∨ s.inputs.head? = some .core) : s.coreNext :=
  h.imp_left List.head?_eq_none_iff.mp

theorem nextWrites_head (h : s.nextWrites r d) : s.inputs.head? = some (.bus (.write r.addr 32 d)) := by
  obtain ⟨rest, hi⟩ := h
  simp [hi]

/-- A host write resets the block exactly when it goes to CTRL with bit 1 set (R29, R137). -/
theorem resetsNext_of_nextWrites (h : s.nextWrites r d) :
    s.resetsNext = (decide (r = .ctrl) && d.getLsbD 1) := by
  simp [State.resetsNext, nextWrites_head h, Event.resets, beq_eq_decide]

/-- The two reset sources: the input, and a soft reset (R137). -/
theorem resetsNext_iff :
    s.resetsNext = true ↔
      s.inputs.head? = some .resetPin ∨ ∃ d : Word, s.nextWrites .ctrl d ∧ d.getLsbD 1 = true := by
  constructor
  · intro h
    unfold State.resetsNext at h
    cases he : s.inputs.head? with
    | none => simp [he] at h
    | some e =>
      rw [he, Option.any_some] at h
      match e with
      | .resetPin => exact .inl rfl
      | .bus (.write a bits d) =>
        simp only [Event.resets, Bool.and_eq_true, beq_iff_eq] at h
        exact .inr ⟨d, nextWrites_of_target he h.1, h.2⟩
  · rintro (h | ⟨d, h, hd⟩)
    · simp [State.resetsNext, h, Event.resets]
    · simp [resetsNext_of_nextWrites h, hd]

/-- At most one command is pending, so at most one completes (R43). -/
theorem completesNext_unique (h : s.completesNext i) (h' : s.completesNext j) : i = j := by
  obtain ⟨_, _, hp⟩ := h
  obtain ⟨_, _, hp'⟩ := h'
  exact Option.some.inj (hp.symm.trans hp')

/-- The step of a host write to CTRL, in any phase (R28, R29). -/
theorem step_ctrlWrite (h : s.nextWrites .ctrl d) : step s = .next (writeCtrl d (s.popped.respond .ok)) := by
  rw [step_nextWrites s .ctrl d h, busWrite_ctrl, actionOutcome]

theorem writeCtrl_softReset (hd : d.getLsbD 1 = true) : writeCtrl d s = s.performReset := if_pos hd

theorem writeCtrl_irqEn (hd : d.getLsbD 1 = false) : writeCtrl d s = { s with irqEn := d.getLsbD 0 } :=
  if_neg (Bool.eq_false_iff.mp hd)

/-- The step of a host write to STATUS, in any phase (R55). -/
theorem step_statusWrite (h : s.nextWrites .status d) :
    step s = .next { s.popped.respond .ok with status := s.status.writeOneToClear d } := by
  rw [step_nextWrites s .status d h, busWrite_status, actionOutcome, State.popped_status]

/-- The step of either reset source (R137). -/
theorem step_resets (h : s.resetsNext = true) : ∃ t : State, step s = .next t.performReset := by
  rcases resetsNext_iff.mp h with hp | ⟨d, hw, hd⟩
  · exact ⟨_, step_resetPin hp⟩
  · exact ⟨_, by rw [step_ctrlWrite hw, writeCtrl_softReset hd]⟩

/-- The step that presents a command to the idle block (R74). -/
theorem step_commandWord (h : s.nextWrites .cmd d) (hb : s.status.busy = false) (hd : decode d = .command i) :
    step s = .next ((s.popped.respond .ok).present i) := by
  rw [step_nextWrites s .cmd d h, busWrite_cmd s.popped d hb, presentWord, hd]
  exact exec_idle i _ hb

/-- The step that rejects an illegal command word (R67, R75). -/
theorem step_illegalWord (h : s.nextWrites .cmd d) (hb : s.status.busy = false) (hd : decode d = .illegal) :
    step s = .next ((s.popped.respond .ok).reject .illegalCmd) := by
  rw [step_nextWrites s .cmd d h, busWrite_cmd s.popped d hb, presentWord, hd]
  rfl

/-- The step of the Core with nothing pending (R136). -/
theorem step_coreIdle (h : s.coreNext) (hb : s.status.busy = false) : step s = .next s.popped := by
  rw [step_core h]
  simp [coreAction, hb, actionOutcome]

/-- The step that completes the pending command (R76). -/
theorem step_completes (h : s.completesNext i) : step s = complete (completionOf i) s.popped := by
  obtain ⟨hc, hb, hp⟩ := h
  rw [step_core hc]
  simp only [coreAction, State.popped_status, State.popped_pend, hb, hp, if_true, actionOutcome]
  exact exec_pending i _ hb hp

end NextEvent

end Sys2Proof.Machine
end

section
/-! SUPPORT. What a step can do to STATUS, PEND and the two internal memories, in the words of the statements about
them (10_state.md R30 to R36): `step_cases`. -/

namespace Sys2Proof.Machine

/-- From `s` to `s'` nothing moved in PEND, the table memory, the round-key file, or STATUS but for OVR. -/
structure KeepsControl (s s' : State) : Prop where
  busy : s'.status.busy = s.status.busy
  done : s'.status.done = s.status.done
  err : s'.status.err = s.status.err
  tablesValid : s'.status.tablesValid = s.status.tablesValid
  rkValid : s'.status.rkValid = s.status.rkValid
  fatal : s'.status.fatal = s.status.fatal
  pend : s'.pend = s.pend
  tm : s'.tm = s.tm
  rkf : s'.rkf = s.rkf

/-- A step from `s` to `s'`, by the agents' actions that R30 to R36 name. -/
inductive StepCase (s : State) : State → Prop
  /-- either reset source, once the bus has answered (R137) -/
  | reset (t : State) : s.resetsNext = true → StepCase s t.performReset
  /-- the Core completes the pending command (R76) -/
  | completed (i : Instr) (s1 : State) (c : ErrCode) : s.completesNext i → completionOf i s.popped = .ok (s1, c) →
      StepCase s (s1.finish c)
  /-- a command is presented to the idle block (R74) -/
  | presented (w : Word) (i : Instr) : s.nextWrites .cmd w → s.status.busy = false → decode w = .command i →
      StepCase s ((s.popped.respond .ok).present i)
  /-- an illegal word is written to CMD of the idle block (R67) -/
  | illegalWord (w : Word) : s.nextWrites .cmd w → s.status.busy = false → decode w = .illegal →
      StepCase s ((s.popped.respond .ok).reject .illegalCmd)
  /-- a write to STATUS (R55) -/
  | statusWritten (d : Word) : s.nextWrites .status d →
      StepCase s { s.popped.respond .ok with status := s.status.writeOneToClear d }
  /-- anything else: a bus error, a read, a write of IRQ_EN or of a data word, a dropped write, or the idle Core -/
  | quiet (s' : State) : KeepsControl s s' → StepCase s s'

theorem keepsControl_storeWord (s : State) (r : Reg) (d : Word) :
    KeepsControl s ((s.popped.respond .ok).storeWord r d) := by
  obtain ⟨-, -, -, hstatus, htm, hrkf, hpend, -⟩ := State.storeWord_frame r d (s.popped.respond .ok)
  constructor <;> simp [hstatus, htm, hrkf, hpend]

/-- Every step is one of the named actions. -/
theorem step_cases {s s' : State} (h : step s = .next s') : StepCase s s' := by
  have e := step_effect h
  generalize he : s.inputs.head? = ev at e
  generalize hp : s.popped = p at e
  cases e with
  | nothing _ _ hcore hb => subst hp; exact .quiet _ (by constructor <;> rfl)
  | resetPin => exact .reset _ (by simp [State.resetsNext, he, Event.resets])
  | readErr => subst hp; exact .quiet _ (by constructor <;> rfl)
  | writeErr => subst hp; exact .quiet _ (by constructor <;> rfl)
  | readData => subst hp; exact .quiet _ (by constructor <;> rfl)
  | readDraw => subst hp; exact .quiet _ (by constructor <;> rfl)
  | softReset _ a bits d ht hd => exact .reset _ (by simp [State.resetsNext, he, Event.resets, ht, hd])
  | irqEnable => subst hp; exact .quiet _ (by constructor <;> rfl)
  | statusClear _ a bits d ht => subst hp; exact .statusWritten d (nextWrites_of_target he ht)
  | dropped => subst hp; exact .quiet _ (by constructor <;> rfl)
  | store _ a bits d r => subst hp; exact .quiet _ (keepsControl_storeWord s r d)
  | illegal _ a bits d ht hb hd => subst hp; exact .illegalWord d (nextWrites_of_target he ht) hb hd
  | presented _ a bits d i ht hb hd => subst hp; exact .presented d i (nextWrites_of_target he ht) hb hd
  | completed _ _ s1 i c hcore hb hpend hrun =>
    subst hp
    exact .completed i s1 c ⟨coreNext_of_head (he ▸ hcore), hb, hpend⟩ hrun

end Sys2Proof.Machine
end

section
/-! SUPPORT. What one completion does to the status bits and the round-key file, command by command (10_state.md R32 to
R34, R36). -/

namespace Sys2Proof.Machine

section Completion

variable {i : Instr} {s s' s1 : State} {c : ErrCode}

theorem writesRoundKeys_iff : writesRoundKeys i = true ↔ i = .derive ∨ i = .encrypt ∨ i = .decrypt := by
  cases i <;> decide

theorem ne_init_of_writesRoundKeys (hi : writesRoundKeys i = true) : i ≠ .init := by
  rintro rfl
  cases hi

/-- DERIVE, ENCRYPT and DECRYPT leave the schedule of KEY in the round-key file, and set RK_VALID alone (R33). -/
theorem completion_derivesKeys (hrun : completionOf i s = .ok (s1, c)) (hi : writesRoundKeys i = true) :
    ∃ T, s.tm = some T ∧ s1.tm = some T ∧ s1.rkf = schedule s.key T ∧
      s1.status = { s.status with rkValid := true } ∧ c = .none := by
  rcases completion_cases hrun with ⟨rfl, -⟩ | ⟨-, rfl, T, hT, rfl⟩ | ⟨-, rfl, T, hT, rfl⟩ | ⟨-, rfl, T, hT, rfl⟩ |
    ⟨rfl, -⟩
  · cases hi
  · exact ⟨T, hT, hT, rfl, rfl, rfl⟩
  · exact ⟨T, hT, hT, rfl, rfl, rfl⟩
  · exact ⟨T, hT, hT, rfl, rfl, rfl⟩
  · cases hi

/-- INIT installs well-formed tables or leaves the block FATAL, and touches no other status bit (R90). -/
theorem completion_init (hrun : completionOf .init s = .ok (s1, c)) :
    s1.status = { s.status with
        tablesValid := s.status.tablesValid || (Config.tableGen s.seed).wf
        fatal := s.status.fatal || !(Config.tableGen s.seed).wf } ∧
      c = if (Config.tableGen s.seed).wf then .none else .tableGenFail := by
  have he : installTables (Config.tableGen s.seed) s = (s1, c) := Except.ok.inj hrun
  rcases installTables_cases (Config.tableGen s.seed) s with ⟨hwf, hi⟩ | ⟨hwf, hi⟩
  · cases hi.symm.trans he
    simp [hwf]
  · cases hi.symm.trans he
    simp [hwf]

/-- FEVAL changes no status bit and never fails (R109). -/
theorem completion_feval (hrun : completionOf .feval s = .ok (s1, c)) :
    s1.status = s.status ∧ c = .none := by
  obtain ⟨T, -, he⟩ := withTables_ok hrun
  cases he
  exact ⟨rfl, rfl⟩

/-- A command that completes is INIT, FEVAL, or one that writes the round-key file (R76). -/
theorem completion_kinds (hrun : completionOf i s = .ok (s1, c)) :
    i = .init ∨ i = .feval ∨ writesRoundKeys i = true := by
  cases i with
  | nop => cases hrun
  | _ => decide

/-- What each completion does to the status bits (R32 to R34): INIT decides TABLES_VALID and FATAL by its generated
tables, and DERIVE, ENCRYPT and DECRYPT set RK_VALID. -/
theorem completion_status (hrun : completionOf i s = .ok (s1, c)) :
    s1.status = { s.status with
      tablesValid := s.status.tablesValid || decide (i = .init) && (Config.tableGen s.seed).wf
      fatal := s.status.fatal || decide (i = .init) && !(Config.tableGen s.seed).wf
      rkValid := s.status.rkValid || writesRoundKeys i } := by
  rcases completion_kinds hrun with rfl | rfl | hi
  · simpa [writesRoundKeys] using (completion_init hrun).1
  · simpa [writesRoundKeys] using (completion_feval hrun).1
  · obtain ⟨T, -, -, -, hs, -⟩ := completion_derivesKeys hrun hi
    simpa [hi, ne_init_of_writesRoundKeys hi] using hs

/-- The code of a completion is 4 for an INIT whose tables are ill formed, and 0 otherwise (R36, R90). -/
theorem completion_code (hrun : completionOf i s = .ok (s1, c)) :
    c.code = if i = .init ∧ (Config.tableGen s.seed).wf = false then 4 else 0 := by
  rcases completion_kinds hrun with rfl | rfl | hi
  · obtain ⟨-, rfl⟩ := completion_init hrun
    cases (Config.tableGen s.seed).wf <;> rfl
  · obtain ⟨-, rfl⟩ := completion_feval hrun
    rfl
  · obtain ⟨T, -, -, -, -, rfl⟩ := completion_derivesKeys hrun hi
    simp [ne_init_of_writesRoundKeys hi, ErrCode.code]

/-- Only the commands that write the round-key file change it (R33). -/
theorem completion_keepsKeys (hrun : completionOf i s = .ok (s1, c)) (hi : writesRoundKeys i = false) :
    s1.rkf = s.rkf := by
  obtain ⟨-, -, -, -, -, -, -, -, -, -, -, -, -, hrkf⟩ := completion_frame hrun
  exact hrkf.resolve_right fun h => by simp [writesRoundKeys_iff.mpr h] at hi

/-- A step that completes a command runs its `Exec` and ends it (R76). -/
theorem step_completes_ok (h : step s = .next s') (hc : s.completesNext i) :
    ∃ s1 c, completionOf i s.popped = .ok (s1, c) ∧ s' = s1.finish c :=
  complete_next (step_completes hc ▸ h)

/-- The Core's step of a busy block completes the command that is pending (R76). -/
theorem completesNext_of_step (h : step s = .next s') (hc : s.coreNext) (hb : s.status.busy = true) :
    ∃ i, s.completesNext i := by
  cases hp : s.pend with
  | some i => exact ⟨i, hc, hb, hp⟩
  | none =>
    rw [step_core hc] at h
    simp [coreAction, hb, hp, actionOutcome] at h

/-- A step that is no reset and completes nothing leaves the tables, the round keys and their status bits (R32 to
R34). -/
theorem step_keepsTablesAndKeys (h : step s = .next s') (hr : s.resetsNext = false)
    (hc : ∀ i, ¬ s.completesNext i) :
    s'.tm = s.tm ∧ s'.rkf = s.rkf ∧ s'.status.tablesValid = s.status.tablesValid ∧
      s'.status.rkValid = s.status.rkValid ∧ s'.status.fatal = s.status.fatal := by
  cases step_cases h with
  | reset t hr' => simp [hr'] at hr
  | completed i s1 c hi => exact absurd hi (hc i)
  | presented w i =>
    obtain ⟨-, -, -, -, -, -, -, -, htm, hrkf, -, -, -, -, htv, hrv, hf, -⟩ := present_frame i (s.popped.respond .ok)
    exact ⟨htm, hrkf, htv, hrv, hf⟩
  | illegalWord => exact ⟨rfl, rfl, rfl, rfl, rfl⟩
  | statusWritten => exact ⟨rfl, rfl, rfl, rfl, rfl⟩
  | quiet _ hk => exact ⟨hk.tm, hk.rkf, hk.tablesValid, hk.rkValid, hk.fatal⟩

end Completion

end Sys2Proof.Machine
end

section
/-! SUPPORT. The statements about STATUS (10_state.md R30 to R36), settled. -/

namespace Sys2Proof.Machine

section Steps

variable {s s' : State}

/-- A step by either reset source leaves a block that `Reset()` has left (R137). -/
theorem step_resets_eq (h : step s = .next s') (hr : s.resetsNext = true) : ∃ t : State, s' = t.performReset := by
  obtain ⟨t, ht⟩ := step_resets hr
  exact ⟨t, by simpa [ht] using h.symm⟩

/-- A step that is no reset sets TABLES_VALID, FATAL and RK_VALID by the completions of R32 to R34 and by nothing else. -/
theorem step_status_iff (h : step s = .next s') (hr : s.resetsNext = false) :
    (s'.status.tablesValid = true ↔
      s.status.tablesValid = true ∨ (s.completesNext .init ∧ (Config.tableGen s.seed).wf = true)) ∧
    (s'.status.fatal = true ↔
      s.status.fatal = true ∨ (s.completesNext .init ∧ (Config.tableGen s.seed).wf = false)) ∧
    (s'.status.rkValid = true ↔ s.status.rkValid = true ∨ ∃ i, s.completesNext i ∧ writesRoundKeys i = true) := by
  by_cases hc : ∃ i, s.completesNext i
  · obtain ⟨i, hi⟩ := hc
    obtain ⟨s1, c, hrun, rfl⟩ := step_completes_ok h hi
    have hiff : ∀ j, s.completesNext j ↔ i = j := fun j => ⟨completesNext_unique hi, fun e => e ▸ hi⟩
    simp [completion_status hrun, hiff]
  · have hno : ∀ i, ¬ s.completesNext i := fun i hi => hc ⟨i, hi⟩
    obtain ⟨-, -, htv, hrk, hf⟩ := step_keepsTablesAndKeys h hr hno
    simp [htv, hrk, hf, hno]

/-- The completions of R33 are those of the commands that write the round-key file. -/
theorem completesRoundKeys_iff :
    (s.completesNext .derive ∨ s.completesNext .encrypt ∨ s.completesNext .decrypt) ↔
      ∃ i, s.completesNext i ∧ writesRoundKeys i = true := by
  simp [writesRoundKeys_iff, and_or_left, exists_or]

end Steps

/-- Settles O21: INIT decides TABLES_VALID, and no other completion writes the table memory. -/
theorem tablesValidOnlyFromInitToReset : Obligations.TablesValidOnlyFromInitToReset := by
  refine ⟨fun s s' h hr => (step_status_iff h hr).1, fun s s' h hr => ?_, fun s s' hinv h htv hr => ⟨?_, ?_⟩⟩
  · obtain ⟨t, rfl⟩ := step_resets_eq h hr
    exact ⟨rfl, rfl⟩
  · by_cases hc : ∃ i, s.completesNext i
    · obtain ⟨i, hi⟩ := hc
      obtain ⟨s1, c, hrun, rfl⟩ := step_completes_ok h hi
      obtain ⟨-, -, -, -, -, -, -, -, -, -, -, -, htm, -⟩ := completion_frame hrun
      have hne : i ≠ .init := by
        rintro rfl
        simp [(hinv.initPending hi.2.2).1] at htv
      exact htm.resolve_right hne
    · exact (step_keepsTablesAndKeys h hr fun i hi => hc ⟨i, hi⟩).1
  · obtain ⟨T, hT⟩ := Option.ne_none_iff_exists'.mp (hinv.tablesHeld.mp htv)
    exact ⟨T, hT, T.legal⟩

/-- Settles O22: the three commands that write the round-key file set RK_VALID, and but for a reset no other
step touches RK_VALID or the round-key file. -/
theorem roundKeysValidFromDerivationToReset : Obligations.RoundKeysValidFromDerivationToReset := by
  simp only [Obligations.RoundKeysValidFromDerivationToReset, completesRoundKeys_iff]
  refine ⟨fun s s' h hr => (step_status_iff h hr).2.2, fun s s' h hr => ?_, fun s s' h hc => ?_,
    fun s s' h hr hc => ?_⟩
  · obtain ⟨t, rfl⟩ := step_resets_eq h hr
    rfl
  · obtain ⟨i, hi, hw⟩ := hc
    obtain ⟨s1, c, hrun, rfl⟩ := step_completes_ok h hi
    obtain ⟨T, hT, hT1, hrkf, -, -⟩ := completion_derivesKeys hrun hw
    exact ⟨T, hT, hT1, hrkf⟩
  · by_cases hex : ∃ i, s.completesNext i
    · obtain ⟨i, hi⟩ := hex
      obtain ⟨s1, c, hrun, rfl⟩ := step_completes_ok h hi
      rw [State.finish_rkf, completion_keepsKeys hrun (Bool.eq_false_iff.mpr fun hw => hc ⟨i, hi, hw⟩),
        State.popped_rkf]
    · exact (step_keepsTablesAndKeys h hr fun i hi => hex ⟨i, hi⟩).2.1

/-- Settles O23: INIT decides FATAL, and the check of FATAL comes first at a presentation. -/
theorem fatalFromFailedInitToReset : Obligations.FatalFromFailedInitToReset := by
  refine ⟨fun s s' h hr => (step_status_iff h hr).2.1, fun s s' h hr => ?_, fun s i hf hb hi => ?_⟩
  · obtain ⟨t, rfl⟩ := step_resets_eq h hr
    rfl
  · rw [exec_idle i s hb, State.present, if_neg hi, if_pos hf]
    rfl

/-- A presentation to the idle block ends the command unless it is accepted: DONE says which (R31, R74). -/
theorem present_done (i : Instr) (s : State) (hb : s.status.busy = false) :
    (s.present i).status.done = !(s.present i).status.busy := by
  rcases present_cases i s with ⟨_, e⟩ | ⟨_, _, e⟩ | ⟨_, _, _, e⟩ | ⟨_, _, _, _, e⟩ | ⟨_, _, _, e⟩ | ⟨_, _, _, _, e⟩ <;>
    simp [e, hb]

/-- A presentation sets ERR by the first check that fails, and to 0 where none does (R36, R74, R75). -/
theorem present_err (i : Instr) (s : State) :
    (s.present i).status.err =
      if i = .nop then 0 else if s.status.fatal = true then 5
      else if i = .init then (if s.status.tablesValid = true then 3 else 0)
      else if s.status.tablesValid = true then 0 else 2 := by
  rcases present_cases i s with ⟨rfl, e⟩ | ⟨h, hf, e⟩ | ⟨rfl, hf, ht, e⟩ | ⟨h, h', hf, ht, e⟩ | ⟨rfl, hf, ht, e⟩ |
    ⟨h, h', hf, ht, e⟩ <;>
    simp [*, ErrCode.code]

/-- Only an acceptance leaves an idle block busy, and it makes the command pending with DONE and ERR 0 (R74). -/
theorem present_raisesBusy (i : Instr) (s : State) (hb : s.status.busy = false)
    (h : (s.present i).status.busy = true) : i ≠ .nop ∧ s.present i = s.accept i := by
  rcases present_cases i s with ⟨_, e⟩ | ⟨_, _, e⟩ | ⟨_, _, _, e⟩ | ⟨_, _, _, _, e⟩ | ⟨rfl, _, _, e⟩ | ⟨hn, _, _, _, e⟩
  · simp [e, hb] at h
  · simp [e, hb] at h
  · simp [e, hb] at h
  · simp [e, hb] at h
  · exact ⟨by decide, e⟩
  · exact ⟨hn, e⟩

/-- A command that passes the checks of R74 is accepted. -/
theorem present_accepts (i : Instr) (s : State) (hn : i ≠ .nop) (hf : s.status.fatal = false)
    (ht : i = .init ↔ s.status.tablesValid = false) : s.present i = s.accept i := by
  cases hv : s.status.tablesValid <;> simp [State.present, hn, hf, ht, hv]

/-- Settles O20: of the named actions only an acceptance raises BUSY, and only a completion or a reset clears it. -/
theorem busyFromAcceptanceToCompletion : Obligations.BusyFromAcceptanceToCompletion := by
  refine ⟨fun s s' h hb hb' => ?_, fun s w i hw hb hd hn hf ht => ?_, fun s s' h hb hb' => ?_, fun s s' h hrc => ?_⟩
  · cases step_cases h with
    | reset => cases hb'
    | completed => cases hb'
    | presented w i hw _ hd =>
      obtain ⟨hn, he⟩ := present_raisesBusy i (s.popped.respond .ok) hb hb'
      exact ⟨w, i, hw, hd, hn, by rw [he]; rfl, by rw [he]; rfl, by rw [he]; rfl⟩
    | illegalWord => exact absurd (hb.symm.trans hb') (by decide)
    | statusWritten => exact absurd (hb.symm.trans hb') (by decide)
    | quiet _ hk => simp [hk.busy, hb] at hb'
  · refine ⟨_, step_commandWord hw hb hd, ?_⟩
    rw [present_accepts i (s.popped.respond .ok) hn hf ht]
    exact ⟨rfl, rfl⟩
  · cases step_cases h with
    | reset t hr => exact .inl hr
    | completed i s1 c hi => exact .inr ⟨hi.1, rfl, rfl⟩
    | presented w i hw hidle => simp [hb] at hidle
    | illegalWord w hw hidle => simp [hb] at hidle
    | statusWritten => exact absurd (hb.symm.trans hb') (by decide)
    | quiet _ hk => simp [hk.busy, hb] at hb'
  · rcases hrc with hr | hc
    · obtain ⟨t, rfl⟩ := step_resets_eq h hr
      rfl
    · cases hb : s.status.busy with
      | true =>
        obtain ⟨i, hi⟩ := completesNext_of_step h hc hb
        obtain ⟨s1, c, -, rfl⟩ := step_completes_ok h hi
        rfl
      | false =>
        rw [step_coreIdle hc hb, Host.Outcome.next.injEq] at h
        subst h
        exact hb

/-- Settles O24: one clause for each action that ends a command or clears its record, and `step_cases` for the rest. -/
theorem doneAndErrRecordTheOutcome : Obligations.DoneAndErrRecordTheOutcome := by
  intro s s' h
  refine ⟨fun hr => ?_, fun hc hb => ?_, fun w hw hb => ?_, fun d hd => ?_, fun hr hc hw hd => ?_⟩
  · obtain ⟨t, rfl⟩ := step_resets_eq h hr
    exact ⟨rfl, rfl⟩
  · obtain ⟨i, hi⟩ := completesNext_of_step h hc hb
    obtain ⟨s1, c, hrun, rfl⟩ := step_completes_ok h hi
    have hpend : s.pend = some .init ↔ i = .init := by simp [hi.2.2]
    rw [State.finish_status_done, State.finish_status_err, completion_code hrun]
    exact ⟨rfl, if_congr (and_congr_left' hpend.symm) rfl rfl⟩
  · cases hdec : decode w with
    | illegal =>
      rw [step_illegalWord hw hb hdec, Host.Outcome.next.injEq] at h
      subst h
      simp [hb, ErrCode.code]
    | command i =>
      rw [step_commandWord hw hb hdec, Host.Outcome.next.injEq] at h
      subst h
      exact ⟨present_done i _ hb, present_err i _⟩
  · rw [step_statusWrite hd, Host.Outcome.next.injEq] at h
    subst h
    exact ⟨rfl, rfl⟩
  · cases step_cases h with
    | reset t hr' => simp [hr'] at hr
    | completed i s1 c hi => exact absurd ⟨hi.1, hi.2.1⟩ hc
    | presented w i hw' hb => exact absurd ⟨hb, w, hw'⟩ hw
    | illegalWord w hw' hb => exact absurd ⟨hb, w, hw'⟩ hw
    | statusWritten d hd' => exact absurd ⟨d, hd'⟩ hd
    | quiet _ hk => exact ⟨hk.done, hk.err⟩

end Sys2Proof.Machine
end

section
/-! SUPPORT. IRQ_EN gates the interrupt output and nothing else (10_state.md R28): but for the accesses to CTRL, a step
commutes with setting it. -/

namespace Sys2Proof.Machine

/-- The state with IRQ_EN set to `b`. -/
def State.withIrqEn (b : Bool) (s : State) : State := { s with irqEn := b }

/-- An outcome with `f` applied to its next state; a stop stays as it is. -/
def mapNext (f : State → State) : Host.Outcome State Fault Refusal → Host.Outcome State Fault Refusal
  | .next s => .next (f s)
  | .fault r => .fault r
  | .refused r => .refused r

section IrqEn

variable (s : State) (b : Bool)

theorem exec_withIrqEn (i : Instr) : exec i (s.withIrqEn b) = mapNext (State.withIrqEn b) (exec i s) := by
  cases hb : s.status.busy with
  | false =>
    rw [exec_idle i s hb, exec_idle i (s.withIrqEn b) hb]
    exact congrArg _ (present_withIrqEn i s b)
  | true =>
    by_cases hp : s.pend = some i
    · rw [exec_pending i s hb hp, exec_pending i (s.withIrqEn b) hb hp, complete, complete, State.withIrqEn,
        completion_withIrqEn]
      cases completionOf i s <;> rfl
    · rw [exec_otherPending i s hb hp, exec_otherPending i (s.withIrqEn b) hb hp]
      rfl

theorem coreAction_withIrqEn :
    actionOutcome (coreAction (s.withIrqEn b)) = mapNext (State.withIrqEn b) (actionOutcome (coreAction s)) := by
  cases hb : s.status.busy with
  | false => simp [coreAction, State.withIrqEn, hb, actionOutcome, mapNext]
  | true =>
    cases hp : s.pend with
    | none => simp [coreAction, State.withIrqEn, hb, hp, actionOutcome, mapNext]
    | some i => simpa [coreAction, State.withIrqEn, hb, hp, actionOutcome] using exec_withIrqEn s b i

theorem busRead_withIrqEn (a : Addr) (bits : Nat) (h : target a bits ≠ some .ctrl) :
    busRead a bits (s.withIrqEn b) = (busRead a bits s).withIrqEn b := by
  unfold busRead
  cases ht : target a bits with
  | none => rfl
  | some r =>
    have hr : (s.withIrqEn b).readReg r = s.readReg r := s.readReg_withIrqEn r b fun hc => h (hc ▸ ht)
    simp only [hr]
    cases s.readReg r <;> rfl

theorem storeWord_withIrqEn (r : Reg) (d : Word) :
    (s.withIrqEn b).storeWord r d = (s.storeWord r d).withIrqEn b := by
  cases r <;> rfl

theorem presentWord_withIrqEn (d : Word) :
    actionOutcome (presentWord d (s.withIrqEn b)) =
      mapNext (State.withIrqEn b) (actionOutcome (presentWord d s)) := by
  unfold presentWord
  cases decode d with
  | illegal => rfl
  | command i => exact exec_withIrqEn s b i

theorem busWrite_withIrqEn (a : Addr) (bits : Nat) (d : Word) (h : target a bits ≠ some .ctrl) :
    actionOutcome (busWrite a bits d (s.withIrqEn b)) =
      mapNext (State.withIrqEn b) (actionOutcome (busWrite a bits d s)) := by
  cases ht : target a bits with
  | none => simp only [busWrite, ht]; rfl
  | some r =>
    obtain ⟨rfl, rfl⟩ := target_some ht
    have hc : r ≠ .ctrl := fun hc => h (hc ▸ ht)
    cases hw : r.writable with
    | false => rw [busWrite_readOnly s r d hw, busWrite_readOnly (s.withIrqEn b) r d hw]; rfl
    | true =>
      by_cases hs : r = .status
      · subst hs
        rw [busWrite_status s d, busWrite_status (s.withIrqEn b) d]
        rfl
      cases hb : s.status.busy with
      | true => rw [busWrite_busy s r d hw hc hs hb, busWrite_busy (s.withIrqEn b) r d hw hc hs hb]; rfl
      | false =>
        by_cases hm : r = .cmd
        · subst hm
          rw [busWrite_cmd s d hb, busWrite_cmd (s.withIrqEn b) d hb]
          exact presentWord_withIrqEn (s.respond .ok) b d
        · rw [busWrite_store s r d hw hc hs hm hb, busWrite_store (s.withIrqEn b) r d hw hc hs hm hb]
          exact congrArg Host.Outcome.next (storeWord_withIrqEn (s.respond .ok) b r d)

/-- The next step gives IRQ_EN a value of its own: a pulse of `rst_n`, or a write to CTRL (R28, R137). -/
def State.setsIrqEnNext : Prop := s.inputs.head? = some .resetPin ∨ ∃ d, s.nextWrites .ctrl d

/-- A step that gives IRQ_EN a value of its own does not see the value before. -/
theorem step_withIrqEn_of_sets (h : s.setsIrqEnNext) : step (s.withIrqEn b) = step s := by
  rcases h with hp | ⟨d, hw⟩
  · exact (step_resetPin (s := s.withIrqEn b) hp).trans (step_resetPin hp).symm
  · rw [step_ctrlWrite hw, step_ctrlWrite (s := s.withIrqEn b) hw]
    unfold writeCtrl
    split <;> rfl

/-- Any other step but a read of CTRL commutes with setting IRQ_EN (R28). -/
theorem step_withIrqEn (hr : ¬ s.nextReads .ctrl) (hset : ¬ s.setsIrqEnNext) :
    step (s.withIrqEn b) = mapNext (State.withIrqEn b) (step s) := by
  cases he : s.inputs.head? with
  | none =>
    have hc : s.coreNext := coreNext_of_head (.inl he)
    rw [step_core hc, step_core (s := s.withIrqEn b) hc]
    exact coreAction_withIrqEn s.popped b
  | some e =>
    cases e with
    | core =>
      rw [step_core (.inr he), step_core (s := s.withIrqEn b) (.inr he)]
      exact coreAction_withIrqEn s.popped b
    | resetPin => exact absurd (.inl he) hset
    | bus t =>
      cases t with
      | read a bits =>
        rw [step_read he, step_read (s := s.withIrqEn b) he]
        exact congrArg Host.Outcome.next
          (busRead_withIrqEn s.popped b a bits fun ht => hr (nextReads_of_target he ht))
      | write a bits d =>
        rw [step_write he, step_write (s := s.withIrqEn b) he]
        exact busWrite_withIrqEn s.popped b a bits d fun ht =>
          hset (.inr ⟨d, nextWrites_of_target he ht⟩)

end IrqEn

/-- What a read of CTRL returns (R54). -/
theorem readReg_ctrl (s : State) : s.readReg .ctrl = some (if s.irqEn then 1 else 0) := by
  cases h : s.irqEn <;> simp [State.readReg, h]

/-- The step of a host read of CTRL (R54). -/
theorem step_ctrlRead {s : State} (h : s.nextReads .ctrl) :
    step s = .next (s.popped.respond (.data (if s.irqEn then 1 else 0))) := by
  rw [step_nextReads s .ctrl h, busRead_data _ _ (readReg_ctrl s.popped)]
  rfl

/-- Settles O17: a step sets IRQ_EN without reading it, reads CTRL, or commutes with setting IRQ_EN. -/
theorem controlRegisterWrites : Obligations.ControlRegisterWrites := by
  refine ⟨fun s d => ⟨fun hw hd => ?_, fun hw hd => ?_, fun x hx => ?_, rfl⟩,
    fun s s' b h => ⟨fun hr => ?_, fun hr => ?_⟩, fun s b f h => ?_⟩
  · exact (step_ctrlWrite hw).trans (congrArg _ (writeCtrl_irqEn hd))
  · exact (step_ctrlWrite hw).trans (congrArg _ (writeCtrl_softReset hd))
  · rw [readReg_ctrl, Option.some.injEq] at hx
    subst hx
    cases s.irqEn <;> decide
  · by_cases hset : s.setsIrqEnNext
    · exact ⟨s'.irqEn, (step_withIrqEn_of_sets s b hset).trans h⟩
    · exact ⟨b, (step_withIrqEn s b hr hset).trans (by rw [h]; rfl)⟩
  · have hr' : (s.withIrqEn b).nextReads .ctrl := hr
    rw [step_ctrlRead hr, Host.Outcome.next.injEq] at h
    subst h
    exact step_ctrlRead hr'
  · have hr : ¬ s.nextReads .ctrl := fun hr => by cases (step_ctrlRead hr).symm.trans h
    by_cases hset : s.setsIrqEnNext
    · exact (step_withIrqEn_of_sets s b hset).trans h
    · exact (step_withIrqEn s b hr hset).trans (by rw [h]; rfl)

end Sys2Proof.Machine
end

section
/-! SUPPORT. Words of a bit sequence as numbers and by position (20_memory.md R45, R47). -/

namespace Sys2Proof.Bits

section Words

variable {n : Nat} (v : Bits n) (w : Nat)

/-- A position of a sequence counted from the right is one counted from the left (R15). -/
theorem getLsbD_sub_eq_getMsbD (u : Bits n) (t : Nat) (ht : t < n) : u.getLsbD (n - 1 - t) = u.getMsbD t := by
  simp [BitVec.getMsbD, ht]

/-- `Vw[31 − t] = v<32w + t>` (R45). -/
theorem getLsbD_wordAt (t : Nat) (ht : t < 32) : (wordAt v w).getLsbD (31 - t) = v.getMsbD (32 * w + t) :=
  (getLsbD_sub_eq_getMsbD (wordAt v w) t ht).trans (getMsbD_wordAt v w ⟨t, ht⟩)

/-- The same bit, with what a position beyond the length reads as written out (R45). -/
theorem getLsbD_wordAt_eq_ite (t : Nat) (ht : t < 32) :
    (wordAt v w).getLsbD (31 - t) = if 32 * w + t < n then v.getMsbD (32 * w + t) else false := by
  rw [getLsbD_wordAt v w t ht]
  split
  · rfl
  · next hout => exact BitVec.getMsbD_of_ge v _ (Nat.le_of_not_lt hout)

/-- Word `w` as a number: 32 binary digits of `int(v)`, with zeros below the last position (R10, R45). -/
theorem toNat_wordAt : (wordAt v w).toNat = v.toNat * 2 ^ (32 * (w + 1)) / 2 ^ n % 2 ^ 32 := by
  refine Nat.eq_of_testBit_eq fun j => ?_
  rw [Nat.testBit_mod_two_pow, Nat.testBit_div_two_pow, Nat.testBit_mul_two_pow]
  by_cases hj : j < 32
  · have hword := getLsbD_wordAt v w (31 - j) (by omega)
    rw [show 31 - (31 - j) = j by omega] at hword
    rw [BitVec.testBit_toNat, hword, BitVec.getMsbD, BitVec.testBit_toNat]
    have hrange : 32 * w + (31 - j) < n ↔ 32 * (w + 1) ≤ j + n := by omega
    by_cases hin : 32 * (w + 1) ≤ j + n
    · rw [show n - 1 - (32 * w + (31 - j)) = j + n - 32 * (w + 1) by omega]
      simp [hj, hrange, hin]
    · simp [hj, hrange, hin]
  · rw [BitVec.testBit_toNat, BitVec.getLsbD_of_ge _ _ (by omega)]
    simp [hj]

end Words

/-- The reserved low byte of an 88-bit value's last word reads 0 (R45). -/
theorem wordAt_two_lowByte (v : Bits 88) : (wordAt v 2).toNat % 2 ^ 8 = 0 := by
  rw [toNat_wordAt]
  omega

/-- Settles O11: the bits come position by position, and the concatenations from each word's value as a number. -/
theorem wordPackingOfSequences : Obligations.WordPackingOfSequences := by
  refine ⟨fun n v w t ht => getLsbD_wordAt_eq_ite v w t ht, fun n v w i d hi => ?_, fun v => ?_, fun v => ?_,
    fun v => ⟨?_, wordAt_two_lowByte v⟩⟩
  · rw [getMsbD_setWordAt v w d ⟨i, hi⟩]
    congr 1
    exact (getLsbD_sub_eq_getMsbD d _ (Nat.mod_lt i (by omega))).symm
  all_goals
    have := v.isLt
    simp only [toNat_wordAt]
    omega

/-- Settles O12: position `t` of byte `k` is position `8(k mod 4) + t` of word `k / 4`. -/
theorem messageByteOrder : Obligations.MessageByteOrder := by
  refine fun v k => ext fun t => ?_
  have ht := t.isLt
  have hw := getLsbD_wordAt v (k.val / 4) (8 * (k.val % 4) + t) (by omega)
  rw [getMsbD_slice, ← getLsbD_sub_eq_getMsbD _ _ ht, BitVec.getLsbD_extractLsb']
  simp only [show 8 - 1 - t.val < 8 by omega, decide_true, Bool.true_and]
  rw [show 24 - 8 * (k.val % 4) + (8 - 1 - t.val) = 31 - (8 * (k.val % 4) + t) by omega, hw]
  congr 1
  omega

end Sys2Proof.Bits
end

section
/-! SUPPORT. What a host read of a register word does (20_memory.md R54, R56, R57). -/

namespace Sys2Proof.Machine

/-- A field put above the bits of a word adds its value at that place. -/
theorem toNat_or_shiftLeft {u x : Word} {k : Nat} (hu : u.toNat < 2 ^ k) (hx : x.toNat * 2 ^ k < 2 ^ 32) :
    (u ||| x <<< k).toNat = u.toNat + 2 ^ k * x.toNat := by
  rw [BitVec.toNat_or, BitVec.toNat_shiftLeft, Nat.shiftLeft_eq, Nat.mod_eq_of_lt hx, Nat.or_comm,
    Nat.mul_comm, ← Nat.two_pow_add_eq_or_of_lt hu, Nat.add_comm]

theorem toNat_zeroExtend_bool (b : Bool) : ((BitVec.ofBool b).zeroExtend 32).toNat = b.toNat := by
  cases b <;> rfl

/-- A status bit put above the bits of a word whose value is known. -/
theorem toNat_or_bitAt {u : Word} {a k : Nat} (b : Bool) (hu : u.toNat = a) (ha : a < 2 ^ k) (hk : k < 32) :
    (u ||| bitAt b k).toNat = a + 2 ^ k * b.toNat := by
  have hfits : b.toNat * 2 ^ k < 2 ^ 32 := by
    have := Bool.toNat_le b
    have := Nat.pow_lt_pow_right (a := 2) (by omega) hk
    nlinarith
  rw [bitAt, toNat_or_shiftLeft (hu ▸ ha) (by rwa [toNat_zeroExtend_bool]), hu, toNat_zeroExtend_bool]

/-- STATUS read as a number (R54): its fields do not overlap, so they add up. -/
theorem Status.toNat_toWord (st : Status) :
    st.toWord.toNat = st.busy.toNat + 2 * st.done.toNat + 4 * st.tablesValid.toNat + 8 * st.rkValid.toNat +
      16 * st.fatal.toNat + 32 * st.ovr.toNat + 256 * st.err.toNat := by
  have hle := Bool.toNat_le
  have hb := hle st.busy
  have hd := hle st.done
  have ht := hle st.tablesValid
  have hr := hle st.rkValid
  have hf := hle st.fatal
  have ho := hle st.ovr
  have he := st.err.isLt
  have herr : (st.err.zeroExtend 32).toNat = st.err.toNat := BitVec.toNat_setWidth_of_le (by omega)
  have h0 : (bitAt st.busy 0).toNat = st.busy.toNat := by
    rw [bitAt, BitVec.shiftLeft_zero, toNat_zeroExtend_bool]
  have h1 := toNat_or_bitAt (k := 1) st.done h0 (by omega) (by omega)
  have h2 := toNat_or_bitAt (k := 2) st.tablesValid h1 (by omega) (by omega)
  have h3 := toNat_or_bitAt (k := 3) st.rkValid h2 (by omega) (by omega)
  have h4 := toNat_or_bitAt (k := 4) st.fatal h3 (by omega) (by omega)
  have h5 := toNat_or_bitAt (k := 5) st.ovr h4 (by omega) (by omega)
  rw [Status.toWord, toNat_or_shiftLeft (by omega) (by omega), h5, herr]
  norm_num

section Reads

variable {s : State} {r : Reg}

/-- The step of a host read of a word that holds defined data (R54). -/
theorem step_readData {x : Word} (h : s.nextReads r) (hx : s.readReg r = some x) :
    step s = .next (s.popped.respond (.data x)) := by
  rw [step_nextReads s r h, busRead_data s.popped r ((s.popped_readReg r).trans hx)]

/-- The step of a host read of a word that returns a draw (R56, R57). -/
theorem step_readDraw (h : s.nextReads r) (hx : s.readReg r = none) :
    step s = .next
      { s.popped.respond (.data (Config.drawWord s.draws)) with draws := s.draws + 1 } := by
  rw [step_nextReads s r h, busRead_draw s.popped r ((s.popped_readReg r).trans hx), State.popped_draws]

/-- Every read of a mapped word returns data and leaves the block as it is (R54). -/
theorem step_read_answers (h : s.nextReads r) :
    ∃ d n, step s = .next { s.popped with response := some (.data d), draws := n } := by
  cases hx : s.readReg r with
  | some x => exact ⟨x, s.draws, step_readData h hx⟩
  | none => exact ⟨_, _, step_readDraw h hx⟩

/-- A 32-bit read of a reserved word is a bus error (R123). -/
theorem step_readReserved {a : Addr} (h : s.inputs.head? = some (.bus (.read a 32))) (ha : Reg.ofAddr a = none) :
    step s = .next s.popped.busErr := by
  rw [step_read h]
  simp [busRead, target, ha]

end Reads

/-- Settles O9: each named word holds defined data, any mapped word answers, and a reserved one is a bus error. -/
theorem readsReturnRegisters : Obligations.ReadsReturnRegisters := by
  intro s
  exact ⟨fun h => step_readData h rfl, step_ctrlRead, fun h => step_readData h rfl,
    fun h => ⟨_, step_readData h rfl, s.status.toNat_toWord⟩, fun h => step_readData h rfl,
    fun h => step_readData h rfl, fun _ h => step_readData h rfl, fun _ h => step_readData h rfl,
    fun _ h => step_readData h rfl, fun _ h => step_readData h rfl, fun _ h => step_readData h rfl,
    fun _ h => step_readData h rfl, fun _ h => step_read_answers h, fun _ h _ ha => step_readReserved h ha⟩

end Sys2Proof.Machine
end

section
/-! SUPPORT. The seed's two words (20_memory.md R46). -/

namespace Sys2Proof.Machine

/-- The step that stores a data register word, given as the next event (R55). -/
theorem step_dataWrite {s : State} {r : Reg} {d : Word} (h : s.nextWrites r d) (hb : s.status.busy = false)
    (hw : r.writable = true) (hc : r ≠ .ctrl) (hs : r ≠ .status) (hm : r ≠ .cmd) :
    step s = .next ((s.popped.respond .ok).storeWord r d) := by
  rw [step_nextWrites s r d h, busWrite_store s.popped r d hw hc hs hm hb, actionOutcome]

/-- Settles O10: the seed is its two words side by side, and a write puts one of them together with the other. -/
theorem seedRegisterWords : Obligations.SeedRegisterWords := by
  refine ⟨rfl, rfl, fun s => ⟨fun h => ?_, fun h => ?_, fun d h hb => ?_, fun d h hb => ?_⟩⟩
  · exact ⟨_, step_readData h rfl, seedLow_toNat s.seed⟩
  · exact ⟨_, step_readData h rfl, seedHigh_toNat s.seed⟩
  · refine ⟨joinSeed (seedHigh s.seed) d, step_dataWrite h hb rfl nofun nofun nofun, ?_⟩
    rw [joinSeed_toNat, seedHigh_toNat]
  · refine ⟨joinSeed d (seedLow s.seed), step_dataWrite h hb rfl nofun nofun nofun, ?_⟩
    rw [joinSeed_toNat, seedLow_toNat]

end Sys2Proof.Machine
end

section
/-! SUPPORT. The round-key window and the table window (20_memory.md R56, R57). -/

namespace Sys2Proof.Machine

section Windows

variable {s : State}

/-- BUSY with a command that writes the round-key file (R56). -/
theorem busyWithRoundKeys_iff : s.busyWithRoundKeys = true ↔
    s.status.busy = true ∧ (s.pend = some .derive ∨ s.pend = some .encrypt ∨ s.pend = some .decrypt) := by
  cases hp : s.pend with
  | none => simp [State.busyWithRoundKeys, hp]
  | some i => simp [State.busyWithRoundKeys, hp, writesRoundKeys_iff]

/-- The round-key window is readable: its keys are valid and no command is rewriting them (R56). -/
theorem roundKeysReadable_iff : (s.status.rkValid && !s.busyWithRoundKeys) = true ↔
    s.status.rkValid = true ∧
      ¬(s.status.busy = true ∧ (s.pend = some .derive ∨ s.pend = some .encrypt ∨ s.pend = some .decrypt)) := by
  rw [← busyWithRoundKeys_iff, Bool.and_eq_true, Bool.not_eq_true', Bool.not_eq_true]

/-- A table-window word is a draw while `TABLES_VALID = 0` (R57). -/
theorem tableWord_invalid {w : Nat} (entry : CipherTablesRaw → BitVec w) (hv : s.status.tablesValid = false) :
    s.tableWord entry = none := by
  unfold State.tableWord
  split <;> simp [hv]

/-- A table-window word is the zero-extended entry while `TABLES_VALID = 1` (R57). -/
theorem tableWord_valid {w : Nat} {T : CipherTables} (entry : CipherTablesRaw → BitVec w)
    (hv : s.status.tablesValid = true) (hT : s.tm = some T) :
    s.tableWord entry = some ((entry T.raw).zeroExtend 32) := by
  simp [State.tableWord, hT, hv]

/-- A table-window word holds the number its entry denotes (R70). -/
theorem toNat_of_tableWord {w : Nat} {T : CipherTables} {d : Word} {entry : CipherTablesRaw → BitVec w}
    (hw : w ≤ 32) (hv : s.status.tablesValid = true) (hT : s.tm = some T) (hd : s.tableWord entry = some d) :
    d.toNat = (entry T.raw).toNat := by
  rw [tableWord_valid entry hv hT, Option.some.injEq] at hd
  rw [← hd, BitVec.toNat_setWidth_of_le hw]

/-- The words from offset `0x00400` on are those of the table window, each with its entry (R53, R57). -/
theorem readReg_tableWindow {r : Reg} (hr : 0x00400 ≤ r.offset) :
    ∃ (w : Nat) (entry : CipherTablesRaw → BitVec w), ∀ s : State, s.readReg r = s.tableWord entry := by
  cases r with
  | ct1 | ct2 | ct3 | ct4 | shift | exp | p1 | p2 | sbox => exact ⟨_, _, fun _ => by rw [State.readReg]⟩
  | _ =>
    simp only [Reg.offset] at hr
    omega

end Windows

/-- Settles O15: the window reads the packed round key where it is readable, and a draw elsewhere. -/
theorem roundKeyWindowReads : Obligations.RoundKeyWindowReads := by
  refine fun s r w => ⟨Reg.addr_toNat _, fun h => ⟨fun hv => ?_, fun hv => ?_⟩, rfl, rfl⟩
  · refine ⟨Bits.wordAt s.rkf[r] w, step_readData h (if_pos (roundKeysReadable_iff.mpr hv)), fun t ht => ?_, ?_⟩
    · exact Bits.getLsbD_wordAt_eq_ite s.rkf[r] w t ht
    · rintro rfl
      exact Bits.wordAt_two_lowByte s.rkf[r]
  · exact step_readDraw h (if_neg (mt roundKeysReadable_iff.mp hv))

/-- Settles O16: a word of the window is its entry, zero-extended, or a draw. -/
theorem tableWindowReads : Obligations.TableWindowReads := by
  refine ⟨fun i r c => Reg.addr_toNat _, fun s r hr h => ⟨fun hv => ?_, fun T hv hT => ?_⟩⟩
  all_goals obtain ⟨w, entry, hentry⟩ := readReg_tableWindow hr
  · exact step_readDraw h ((hentry s).trans (tableWord_invalid entry hv))
  · have hd := (hentry s).trans (tableWord_valid entry hv hT)
    refine ⟨_, step_readData h hd, ?_⟩
    refine ⟨fun j e => ?_, fun j e => ?_, fun j e => ?_, fun j e => ?_, fun q e => ?_, fun p e => ?_, fun j e => ?_,
      fun j e => ?_, fun i q c e => ?_⟩
    all_goals
      rw [e, State.readReg] at hd
      exact toNat_of_tableWord (by decide) hv hT hd

end Sys2Proof.Machine
end

section
/-! SUPPORT. The register map, address by address (20_memory.md R53). -/

namespace Sys2Proof.Machine

theorem ite_some_eq_none_iff {α : Type} {c : Prop} [Decidable c] {x : α} {y : Option α} :
    (if c then some x else y) = none ↔ ¬ c ∧ y = none := by
  split <;> simp [*]

theorem dite_some_eq_none_iff {α : Type} {c : Prop} [Decidable c] {x : c → α} {y : Option α} :
    (if h : c then some (x h) else y) = none ↔ ¬ c ∧ y = none := by
  split <;> simp [*]

theorem aligned_iff {a : Addr} : aligned a = true ↔ a.toNat % 4 = 0 := by simp [aligned]

/-- An aligned address leads to a word exactly when it is that word's address (R53). -/
theorem Reg.ofAddr_eq_some_iff {a : Addr} {r : Reg} (ha : aligned a = true) : Reg.ofAddr a = some r ↔ r.addr = a := by
  constructor
  · intro h
    apply BitVec.eq_of_toNat_eq
    rw [Reg.addr_toNat, Reg.offset_of_atOffset (aligned_iff.mp ha) h]
  · rintro rfl
    exact r.ofAddr_addr

/-- The fourth word of each round key's 16 bytes, by offset (R53). -/
theorem exists_roundKeyPad_iff (n : Nat) :
    (∃ r : Fin 42, n = 0x00100 + 16 * r.val + 12) ↔ 0x00100 ≤ n ∧ n < 0x003A0 ∧ n % 16 = 12 := by
  constructor
  · rintro ⟨r, rfl⟩
    omega
  · rintro ⟨hlo, hhi, hpad⟩
    exact ⟨⟨(n - 0x00100) / 16, by omega⟩, by simp only; omega⟩

/-- Settles O4: the words found are those that stand at the offset, and none is found outside every word's range. -/
theorem addressMapIsExact : Obligations.AddressMapIsExact := by
  refine ⟨?_, ?_, fun a r ha => Reg.ofAddr_eq_some_iff ha, fun a ha => ?_, fun r => ?_⟩
  · simp [Reg.offset]
  · simp [Reg.offset]
  · have h4 := aligned_iff.mp ha
    have hlt := a.isLt
    rw [exists_roundKeyPad_iff, Reg.ofAddr]
    simp only [Reg.atOffset, ite_some_eq_none_iff, dite_some_eq_none_iff, and_true]
    constructor <;> intro h <;> omega
  · cases r <;> simp [Reg.writable]

end Sys2Proof.Machine
end

section
/-! SUPPORT. The command decoder, word by word (30_encoding.md R65 to R67). -/

namespace Sys2Proof

section Decoder

variable {w : Word}

/-- A word decodes to a command exactly when it is that command's word, on all 32 bits (R66). -/
theorem decode_eq_command_iff {i : Instr} : decode w = .command i ↔ w = encode i := by
  constructor
  · intro h
    unfold decode at h
    split_ifs at h with hw hw hw hw hw hw
    all_goals (cases h; exact hw)
  · rintro rfl
    cases i <;> rfl

/-- The command words are the numbers 0 to 5 (R65). -/
theorem exists_encode_eq_iff : (∃ i, w = encode i) ↔ w.toNat ≤ 5 := by
  constructor
  · rintro ⟨i, rfl⟩
    cases i <;> decide
  · intro h
    have hw : w = BitVec.ofNat 32 w.toNat := by simp
    interval_cases w.toNat
    exacts [⟨.nop, hw⟩, ⟨.init, hw⟩, ⟨.derive, hw⟩, ⟨.encrypt, hw⟩, ⟨.decrypt, hw⟩, ⟨.feval, hw⟩]

/-- Every word decodes, to a command or to `illegal` (R67). -/
theorem decode_eq_illegal_iff_not_command : decode w = .illegal ↔ ¬ ∃ i, decode w = .command i := by
  cases decode w <;> simp

/-- The illegal words are the numbers from 6 on (R67). -/
theorem decode_eq_illegal_iff : decode w = .illegal ↔ 6 ≤ w.toNat := by
  simp only [decode_eq_illegal_iff_not_command, decode_eq_command_iff, exists_encode_eq_iff, not_le]
  exact Nat.succ_le_iff

/-- The field `w[31:4]` is 0 exactly in the numbers below 16 (R64). -/
theorem mbzField_eq_zero_iff : w.extractLsb' 4 28 = 0 ↔ w.toNat < 16 := by
  have hw : w.toNat < 2 ^ 32 := w.isLt
  rw [← BitVec.toNat_inj, BitVec.extractLsb'_toNat, Nat.shiftRight_eq_div_pow]
  change w.toNat / 2 ^ 4 % 2 ^ 28 = 0 ↔ w.toNat < 16
  omega

/-- The field `w[3:0]` as a number (R64). -/
theorem opcodeField_toNat : (w.extractLsb' 0 4).toNat = w.toNat % 16 := by
  rw [BitVec.extractLsb'_toNat, Nat.shiftRight_zero]

/-- The illegal words by their fields: `w[31:4]` is not 0, or the opcode is reserved (R64, R67). -/
theorem decode_eq_illegal_iff_fields :
    decode w = .illegal ↔ w.extractLsb' 4 28 ≠ 0 ∨ 6 ≤ (w.extractLsb' 0 4).toNat := by
  rw [decode_eq_illegal_iff, ne_eq, mbzField_eq_zero_iff, opcodeField_toNat]
  omega

end Decoder

/-- Settles O1: each command by its word, the illegal words by their fields, and the step that rejects one. -/
theorem decoderIsTotalAndExact : Obligations.DecoderIsTotalAndExact :=
  ⟨fun _ => decode_eq_command_iff, fun _ => decode_eq_command_iff, fun _ => decode_eq_command_iff,
    fun _ => decode_eq_command_iff, fun _ => decode_eq_command_iff, fun _ => decode_eq_command_iff,
    fun _ => decode_eq_illegal_iff_fields, fun _ _ h hb hd => Machine.step_illegalWord h hb hd⟩

end Sys2Proof
end

section
/-! SUPPORT. The command protocol (40_command_protocol.md R74, R75, R79 to R81): what a word written to CMD does, and
what a step leaves alone while a command is pending. -/

namespace Sys2Proof.Machine

section Protocol

variable {s s' : State}

/-- The step of a host write that is dropped because the block is busy (R55, R124). -/
theorem step_droppedWrite {r : Reg} {d : Word} (h : s.nextWrites r d) (hb : s.status.busy = true)
    (hw : r.writable = true) (hc : r ≠ .ctrl) (hs : r ≠ .status) :
    step s = .next (s.popped.respond .ok).overrun := by
  rw [step_nextWrites s r d h, busWrite_busy s.popped r d hw hc hs hb, actionOutcome]

/-- A command word written while busy is dropped, whatever the word (R79). -/
theorem step_droppedCommandWord {w : Word} (h : s.nextWrites .cmd w) (hb : s.status.busy = true) :
    step s = .next (s.popped.respond .ok).overrun :=
  step_droppedWrite h hb rfl nofun nofun

/-- The checks of a presentation in their order, as one equation (R74, R75). -/
theorem present_eq_ite (i : Instr) (s : State) :
    s.present i =
      if i = .nop then s.nopEnd
      else if s.status.fatal = true then s.reject .fatal
      else if i = .init ∧ s.status.tablesValid = true then s.reject .tablesLocked
      else if i ≠ .init ∧ s.status.tablesValid = false then s.reject .notInit
      else s.accept i := by
  rcases present_cases i s with ⟨rfl, e⟩ | ⟨hn, hf, e⟩ | ⟨rfl, hf, ht, e⟩ | ⟨hn, hi, hf, ht, e⟩ | ⟨rfl, hf, ht, e⟩ |
    ⟨hn, hi, hf, ht, e⟩ <;>
    simp [*]

/-- An effect that leaves the block busy, as it was before, touches STATUS, IRQ_EN and the bus side alone (R80). -/
theorem Effect.eq_of_staysBusy {e : Option Event} (h : Effect e s s') (hb : s.status.busy = true)
    (hb' : s'.status.busy = true) :
    s' = { s with
      status := s'.status, irqEn := s'.irqEn, draws := s'.draws, inputs := s'.inputs, response := s'.response } := by
  cases h with
  | nothing | readErr | writeErr | readData | readDraw | irqEnable | statusClear | dropped => rfl
  | resetPin | softReset | completed => cases hb'
  | store | illegal | presented => cases hb.symm.trans ‹s.status.busy = false›

end Protocol

/-- Settles O26: a busy block drops the word, and an idle one rejects an illegal word or presents the command. -/
theorem presentationChecksInOrder : Obligations.PresentationChecksInOrder := by
  refine ⟨fun s w h hb => step_droppedCommandWord h hb, fun s w h hb => ?_⟩
  cases hd : decode w with
  | illegal => exact step_illegalWord h hb hd
  | command i =>
    rw [step_commandWord h hb hd, present_eq_ite]
    rfl

/-- Settles O30: no effect that leaves the block busy reaches PEND, an operand or an output. -/
theorem operandsFixedWhilePending : Obligations.OperandsFixedWhilePending := by
  intro s s' hb h hb'
  rw [(step_effect h).eq_of_staysBusy hb hb']
  exact ⟨rfl, rfl, rfl, rfl, rfl, rfl, rfl, rfl, rfl, rfl⟩

/-- Settles O27: NOP is the first check of a presentation, so neither FATAL nor TABLES_VALID is looked at. -/
theorem nopEndsAtOnce : Obligations.NopEndsAtOnce := by
  have hword : (State.reset.withFetchWord 32 0).nextWrites .cmd 0x00000000#32 := ⟨[], rfl⟩
  exact ⟨fun _ => decode_eq_command_iff, fun s hb => exec_idle .nop s hb,
    fun s h hb => step_droppedCommandWord h hb, _, step_commandWord hword rfl rfl, rfl⟩

end Sys2Proof.Machine
end

section
/-! SUPPORT. A pending command's step and what INIT, ENCRYPT and DECRYPT leave behind (41_table_generator.md R90, R91,
44_feistel_engine.md R115, R116). -/

namespace Sys2Proof.Machine

section Pending

variable {i : Instr} {s s1 t : State} {c : ErrCode}

/-- The step of a pending command stores what its `Exec` returns and ends it (R76). -/
theorem exec_completes (hb : s.status.busy = true) (hp : s.pend = some i) (hrun : completionOf i s = .ok (s1, c)) :
    exec i s = .next (s1.finish c) := by
  rw [exec_pending i s hb hp, complete, hrun]

/-- A step of a pending command that goes on is its completion (R76). -/
theorem completion_of_exec (hb : s.status.busy = true) (hp : s.pend = some i) (h : exec i s = .next t) :
    ∃ s1 c, completionOf i s = .ok (s1, c) ∧ t = s1.finish c :=
  complete_next (exec_pending i s hb hp ▸ h)

/-- INIT leaves the table set generated from SEED where it is well formed, and no table set otherwise (R90). -/
theorem completion_init_tm (hrun : completionOf .init s = .ok (s1, c)) :
    s1.tm = if h : (Config.tableGen s.seed).wf = true then some ⟨Config.tableGen s.seed, h⟩ else none := by
  have he : installTables (Config.tableGen s.seed) s = (s1, c) := Except.ok.inj hrun
  rcases installTables_cases (Config.tableGen s.seed) s with ⟨hwf, hi⟩ | ⟨hwf, hi⟩ <;> cases hi.symm.trans he
  · rw [dif_pos hwf]
  · rw [dif_neg (Bool.eq_false_iff.mp hwf)]

/-- ENCRYPT and DECRYPT leave the schedule of KEY and the cipher of DIN under it, in their own order of the keys
(R115, R116). -/
theorem completion_cipher (hi : i = .encrypt ∨ i = .decrypt) (hrun : completionOf i s = .ok (s1, c)) :
    ∃ T, s.tm = some T ∧ s1.rkf = schedule s.key T ∧
      s1.dout = feistel T s.din (schedule s.key T) (if i = .encrypt then encryptOrder else decryptOrder) := by
  rcases hi with rfl | rfl
  all_goals
    obtain ⟨T, hT, he⟩ := withTables_ok hrun
    cases he
    exact ⟨T, hT, rfl, rfl⟩

end Pending

/-- Settles O33: the checks are those of every presentation, and the completion has the two outcomes of an INIT's
generation. -/
theorem initChecksAndCompletes : Obligations.InitChecksAndCompletes := by
  refine ⟨fun _ => decode_eq_command_iff, fun s hb => ?_, fun s hb hp => ⟨freeWork s.draws, s.draws + 1, ?_⟩⟩
  · rw [exec_idle .init s hb, present_eq_ite]
    simp only [reduceCtorEq, if_false, true_and, ne_eq, not_true_eq_false, false_and]
    rfl
  · rcases installTables_cases (Config.tableGen s.seed) s with ⟨hwf, hi⟩ | ⟨hwf, hi⟩
    · rw [exec_completes hb hp (congrArg Except.ok hi), dif_pos hwf]
      rfl
    · rw [exec_completes hb hp (congrArg Except.ok hi), dif_neg (Bool.eq_false_iff.mp hwf)]
      rfl

/-- Settles O38: TM is a function of SEED, and DOUT and RKF of KEY, DIN and TM. -/
theorem tablesAndCiphertextDeterministic : Obligations.TablesAndCiphertextDeterministic := by
  refine ⟨fun s1 s2 t1 t2 hb1 hb2 hp1 hp2 hseed h1 h2 => ?_,
    fun i s1 s2 t1 t2 hi hb1 hb2 hp1 hp2 hkey hdin htm h1 h2 => ?_⟩
  · obtain ⟨u1, c1, hrun1, rfl⟩ := completion_of_exec hb1 hp1 h1
    obtain ⟨u2, c2, hrun2, rfl⟩ := completion_of_exec hb2 hp2 h2
    simp only [State.finish_tm, completion_init_tm hrun1, completion_init_tm hrun2, hseed]
  · obtain ⟨u1, c1, hrun1, rfl⟩ := completion_of_exec hb1 hp1 h1
    obtain ⟨u2, c2, hrun2, rfl⟩ := completion_of_exec hb2 hp2 h2
    obtain ⟨T1, hT1, hrkf1, hdout1⟩ := completion_cipher hi hrun1
    obtain ⟨T2, hT2, hrkf2, hdout2⟩ := completion_cipher hi hrun2
    obtain rfl : T1 = T2 := Option.some.inj (hT1.symm.trans (htm.trans hT2))
    simp only [State.finish_dout, State.finish_rkf, hrkf1, hrkf2, hdout1, hdout2, hkey, hdin, and_self]

end Sys2Proof.Machine
end

section
/-! SUPPORT. The well-formedness of a table set, by position (41_table_generator.md R84 to R89). -/

namespace Sys2Proof

namespace CipherTablesRaw

/-- A permutation table is a bijection of `0..63` (R89). -/
theorem bijective_of_wfPermutation {T : Vector (BitVec 6) 64} (h : wfPermutation T = true) :
    Function.Bijective (fun j : Fin 64 => T[j].toFin) := by
  have hinj : Function.Injective (fun j : Fin 64 => T[j]) := .of_lt_imp_ne ((wfPermutation_iff T).mp h)
  exact Finite.injective_iff_bijective.mp fun a b hab => hinj (BitVec.eq_of_toFin_eq hab)

end CipherTablesRaw

open CipherTablesRaw in
/-- Settles O39: each named check by position, and the distinct entries of P1 and P2 are all of `0..63`. -/
theorem wellFormedIffNamedChecks : Obligations.WellFormedIffNamedChecks := by
  refine ⟨fun t => ?_, fun T => ?_⟩
  · rw [wf_iff]
    simp only [wfCompression_iff, wfShift_iff, wfExp_iff, wfPermutation_iff]
  · obtain ⟨-, -, -, -, -, -, hp1, hp2⟩ := (wf_iff T.raw).mp T.legal
    exact ⟨bijective_of_wfPermutation hp1, bijective_of_wfPermutation hp2⟩

end Sys2Proof
end

section
/-! SUPPORT. The checks that the commands over the table memory share, and DERIVE (42_key_schedule.md R98). -/

namespace Sys2Proof.Machine

/-- Presented, a command that needs tables and is not INIT passes the checks of FATAL and TABLES_VALID or is rejected
by the first that fails (R74, R98). -/
theorem present_eq_acceptedWithTables {i : Instr} (hn : i ≠ .nop) (hi : i ≠ .init) (s : State) :
    s.present i = acceptedWithTables i s := by
  rw [present_eq_ite, if_neg hn]
  simp only [hi, false_and, if_false, ne_eq, not_false_eq_true, true_and]
  rfl

/-- Settles O34: the shared checks, and the completion that stores the schedule of KEY. -/
theorem deriveChecksAndCompletes : Obligations.DeriveChecksAndCompletes := by
  refine ⟨fun _ => decode_eq_command_iff, fun s hb => ?_,
    fun s T hb hp hT => ⟨freeWork s.draws, s.draws + 1, ?_⟩⟩
  · rw [exec_idle .derive s hb, present_eq_acceptedWithTables (by decide) (by decide)]
  · rw [exec_completes hb hp (withTables_some hT)]
    rfl

end Sys2Proof.Machine
end

section
/-! SUPPORT. The key schedule, bit by bit (42_key_schedule.md R92 to R97): the table entries as positions of the
sequences they index, and the key bit that each round-key bit copies. -/

namespace Sys2Proof

namespace CipherTablesRaw

/-- Entry `j` of a legal compression table, as a position of the sequence the table gathers from (R13, R85). -/
def entryAt {m win : Nat} {T : Vector (BitVec 7) m} (h : wfCompression win T = true) (j : Fin m) : Fin win :=
  ⟨T[j].toNat, ((wfCompression_iff win T).mp h).1 j⟩

/-- The entries of a legal compression table are distinct (R85). -/
theorem entryAt_injective {m win : Nat} {T : Vector (BitVec 7) m} (h : wfCompression win T = true) :
    Function.Injective (entryAt h) := by
  intro a b hab
  obtain ⟨-, hne⟩ := (wfCompression_iff win T).mp h
  have hinj : Function.Injective (fun j : Fin m => T[j]) := .of_lt_imp_ne hne
  exact hinj (BitVec.eq_of_toNat_eq (Fin.mk.inj hab))

end CipherTablesRaw

/-- A table gathers, at each position, the bit its entry names (R13). -/
theorem Bits.getMsbD_gather_entryAt {m win : Nat} {T : Vector (BitVec 7) m}
    (h : CipherTablesRaw.wfCompression win T = true) (v : Bits win) (j : Fin m) :
    (Bits.gather T v).getMsbD j = v.getMsbD (CipherTablesRaw.entryAt h j) :=
  Bits.getMsbD_gather T v j

namespace CipherTables

open CipherTablesRaw (entryAt entryAt_injective)

variable (T : CipherTables)

/-- The position of the cipher key that position `c` of `K100` copies: `CT1[CT2[CT3[c]]]` (R92). -/
def keyPosition (c : Fin 100) : Fin 128 := entryAt T.ct1_legal (entryAt T.ct2_legal (entryAt T.ct3_legal c))

theorem keyPosition_injective : Function.Injective T.keyPosition :=
  (entryAt_injective T.ct1_legal).comp ((entryAt_injective T.ct2_legal).comp (entryAt_injective T.ct3_legal))

/-- The rotation amounts are 1, 2, 3 and 5 (R86). -/
theorem amount_cases (r : Fin 42) : T.amount r = 1 ∨ T.amount r = 2 ∨ T.amount r = 3 ∨ T.amount r = 5 := by
  obtain ⟨-, -, -, -, hshift, -⟩ := (CipherTablesRaw.wf_iff T.raw).mp T.legal
  exact (CipherTablesRaw.wfShift_iff T.raw.shift).mp hshift r

end CipherTables

namespace Machine

open CipherTablesRaw (entryAt entryAt_injective)

/-- `ρ` for the amount `s` (R97): the position of `K100` that position `i` of the rotated halves copies. -/
def rotatedPosition (s : Nat) (i : Fin 100) : Fin 100 :=
  ⟨if i.val < 50 then (i.val + s) % 50 else 50 + (i.val - 50 + s) % 50, by split <;> omega⟩

/-- Each half rotates onto itself, so no position of `K100` is copied twice (R93). -/
theorem rotatedPosition_injective (s : Nat) : Function.Injective (rotatedPosition s) := by
  intro a b h
  have hval := congrArg Fin.val h
  simp only [rotatedPosition] at hval
  ext
  split at hval <;> split at hval <;> omega

section Bits

variable (T : CipherTables) (K : CipherKey) (r : Fin 42) (j : Fin 88)

/-- Every bit of the reduced key is a bit of the cipher key (R92). -/
theorem getMsbD_reduceKey (c : Fin 100) : (reduceKey T K).getMsbD c = K.getMsbD (T.keyPosition c) := by
  rw [reduceKey, Bits.getMsbD_gather_entryAt T.ct3_legal, Bits.getMsbD_gather_entryAt T.ct2_legal,
    Bits.getMsbD_gather_entryAt T.ct1_legal, CipherTables.keyPosition]

/-- Every bit of a round key is a bit of the unrotated reduced key (R93 to R95). -/
theorem getMsbD_schedule_reduceKey :
    (schedule K T)[r].getMsbD j = (reduceKey T K).getMsbD (rotatedPosition (T.amount r) (entryAt T.ct4_legal j)) := by
  rw [schedule_getElem, roundKey, Bits.getMsbD_gather_entryAt T.ct4_legal]
  exact getMsbD_rotatedHalves _ _ _ (Fin.isLt _)

/-- `σ_r(j)` (R97): the position of the cipher key that bit `j` of round key `r` copies. -/
def roundKeySource : Fin 128 := T.keyPosition (rotatedPosition (T.amount r) (entryAt T.ct4_legal j))

theorem roundKeySource_injective : Function.Injective (roundKeySource T r) :=
  T.keyPosition_injective.comp ((rotatedPosition_injective _).comp (entryAt_injective T.ct4_legal))

/-- Every bit of a round key is a bit of the cipher key, copied (R97). -/
theorem getMsbD_schedule : (schedule K T)[r].getMsbD j = K.getMsbD (roundKeySource T r j) := by
  rw [getMsbD_schedule_reduceKey, getMsbD_reduceKey, roundKeySource]

/-- The round key for the amount `s`, whatever round it stands in (R93, R96). -/
def roundKeyOfAmount (s : Nat) : RoundKey := Bits.gather T.raw.ct4 (rotatedHalves (reduceKey T K) s)

theorem schedule_eq_roundKeyOfAmount : (schedule K T)[r] = roundKeyOfAmount T K (T.amount r) := by
  rw [schedule_getElem, roundKey, roundKeyOfAmount]

/-- The table SHIFT plays no part once the amount is given (R96). -/
theorem roundKeyOfAmount_congr {T' : CipherTables} (h : T'.raw = { T.raw with shift := T'.raw.shift }) (s : Nat) :
    roundKeyOfAmount T K s = roundKeyOfAmount T' K s := by
  have h1 : T'.raw.ct1 = T.raw.ct1 := by rw [h]
  have h2 : T'.raw.ct2 = T.raw.ct2 := by rw [h]
  have h3 : T'.raw.ct3 = T.raw.ct3 := by rw [h]
  have h4 : T'.raw.ct4 = T.raw.ct4 := by rw [h]
  simp only [roundKeyOfAmount, reduceKey, h1, h2, h3, h4]

end Bits

/-- Settles O41: the indices are the tables' entries, in range because the set is legal. -/
theorem reducedKeyBits : Obligations.ReducedKeyBits := fun T K j =>
  ⟨entryAt T.ct3_legal j, entryAt T.ct2_legal (entryAt T.ct3_legal j), rfl, rfl, getMsbD_reduceKey T K j⟩

/-- Settles O42: every round rotates the one reduced key by its own amount. -/
theorem roundKeyBits : Obligations.RoundKeyBits := fun T K r j =>
  ⟨entryAt T.ct4_legal j, rfl, getMsbD_schedule_reduceKey T K r j⟩

/-- Settles O43: a round key is a function of its amount and the other tables, and there are four amounts. -/
theorem roundKeyDependsOnOwnShift : Obligations.RoundKeyDependsOnOwnShift := by
  refine ⟨fun T T' K r q hT hrq => ?_, fun T K => ⟨roundKeyOfAmount T K 1, roundKeyOfAmount T K 2,
    roundKeyOfAmount T K 3, roundKeyOfAmount T K 5, fun r => ?_⟩⟩
  · have hamount : T.amount r = T'.amount q := congrArg BitVec.toNat hrq
    rw [schedule_eq_roundKeyOfAmount, schedule_eq_roundKeyOfAmount, hamount, roundKeyOfAmount_congr T K hT]
  · rw [schedule_eq_roundKeyOfAmount]
    rcases T.amount_cases r with h | h | h | h <;> simp [h]

/-- Settles O44: `roundKeySource` is the index map, and the fixed keys and linearity follow bit by bit from it. -/
theorem roundKeyBitsAreKeyBits : Obligations.RoundKeyBitsAreKeyBits := by
  refine fun T => ⟨⟨roundKeySource T, roundKeySource_injective T, fun r j => ?_, fun K r j => getMsbD_schedule T K r j⟩,
    fun r => ⟨Bits.ext fun j => ?_, Bits.ext fun j => ?_⟩, fun K K' r => Bits.ext fun j => ?_⟩
  · exact ⟨entryAt T.ct4_legal j, rotatedPosition (T.amount r) (entryAt T.ct4_legal j), _, _, rfl, rfl, rfl, rfl, rfl⟩
  · rw [getMsbD_schedule]
    simp
  · rw [getMsbD_schedule]
    simp only [BitVec.getMsbD_allOnes, Fin.isLt]
  · simp only [getMsbD_schedule, BitVec.getMsbD_xor]

end Machine

end Sys2Proof
end

section
/-! SUPPORT. The round function, bit by bit (43_round_function.md R99 to R107), and FEVAL (R109). -/

namespace Sys2Proof

namespace Bits

/-- The first `n` digits alone make the number (R10). -/
theorem digits_congr {f g : Nat → Bool} {n : Nat} (h : ∀ i < n, f i = g i) : digits f n = digits g n := by
  induction n with
  | zero => rfl
  | succ n ih => rw [digits, digits, ih fun i hi => h i (Nat.lt_succ_of_lt hi), h n (Nat.lt_succ_self n)]

/-- A sequence built from its bits, as the number they are the digits of (R10). -/
theorem toNat_ofFn (n : Nat) (f : Nat → Bool) : (ofFn n fun i => f i).toNat = digits f n := by
  rw [ofFn, BitVec.toNat_ofNat, Nat.mod_eq_of_lt (digits_lt _ n)]
  exact digits_congr fun i hi => dif_pos hi

/-- Any table gathers zeros from the all-zero sequence (R13). -/
theorem gather_zero {w m n : Nat} (T : Vector (BitVec w) m) : gather T (0 : Bits n) = 0 :=
  ext fun j => by simp

/-- A table with entries in range gathers ones from the all-one sequence (R13). -/
theorem gather_allOnes {w m n : Nat} (T : Vector (BitVec w) m) (hT : ∀ j : Fin m, T[j].toNat < n) :
    gather T (BitVec.allOnes n) = BitVec.allOnes m :=
  ext fun j => by
    rw [getMsbD_gather, BitVec.getMsbD_allOnes, BitVec.getMsbD_allOnes, decide_eq_true (hT j), decide_eq_true j.isLt]

end Bits

namespace CipherTables

/-- Inside a group of 11 positions EXP names no position twice (R87, R99). -/
theorem exp_ne_in_group (T : CipherTables) (g : Fin 8) (a b : Fin 88) (ha : 11 * g.val ≤ a.val) (hab : a < b)
    (hb : b.val ≤ 11 * g.val + 10) : T.raw.exp[a] ≠ T.raw.exp[b] := by
  obtain ⟨-, -, -, -, -, hexp, -, -⟩ := (CipherTablesRaw.wf_iff T.raw).mp T.legal
  exact (CipherTablesRaw.wfExp_iff T.raw.exp).mp hexp g a b ha hab hb

end CipherTables

namespace Machine

section Stages

variable (T : CipherTables) (m : Bits 88)

/-- Position `t` of lane `i`'s chunk (R101). -/
theorem getMsbD_chunk (i : Fin 8) (t : Fin 11) : (chunk m i).getMsbD t = m.getMsbD (11 * i.val + t.val) :=
  Bits.getMsbD_slice m (11 * i) 11 t

/-- A row is the number of the six even positions (R102). -/
theorem toNat_laneRow (c : Bits 11) :
    (laneRow c).toNat = 32 * (c.getMsbD 0).toNat + 16 * (c.getMsbD 2).toNat + 8 * (c.getMsbD 4).toNat +
      4 * (c.getMsbD 6).toNat + 2 * (c.getMsbD 8).toNat + (c.getMsbD 10).toNat := by
  rw [laneRow, Bits.toNat_ofFn 6 fun t => c.getMsbD (2 * t)]
  simp only [Bits.digits, Nat.reduceMul]
  omega

/-- A column is the number of the five odd positions (R102). -/
theorem toNat_laneCol (c : Bits 11) :
    (laneCol c).toNat = 16 * (c.getMsbD 1).toNat + 8 * (c.getMsbD 3).toNat + 4 * (c.getMsbD 5).toNat +
      2 * (c.getMsbD 7).toNat + (c.getMsbD 9).toNat := by
  rw [laneCol, Bits.toNat_ofFn 5 fun t => c.getMsbD (2 * t + 1)]
  simp only [Bits.digits, Nat.reduceMul, Nat.reduceAdd]
  omega

/-- Two mixed values that agree on a lane's 11 bits give that lane one output (R101 to R103). -/
theorem lane_congr {m' : Bits 88} {i : Fin 8}
    (h : ∀ t : Fin 11, m.getMsbD (11 * i.val + t.val) = m'.getMsbD (11 * i.val + t.val)) :
    lane T m i = lane T m' i := by
  have hchunk : chunk m i = chunk m' i := Bits.ext fun t => by rw [getMsbD_chunk, getMsbD_chunk, h]
  rw [lane, lane, hchunk]

/-- Position `p` of the substitution result is position `p mod 8` of lane `p / 8` (R104). -/
theorem getMsbD_substitute {p : Nat} {i : Fin 8} (hi : p / 8 = i.val) :
    (substitute T m).getMsbD p = (lane T m i).getMsbD (p % 8) := by
  have hlane : i = ⟨p / 8, by omega⟩ := Fin.ext hi.symm
  rw [hlane]
  exact Bits.getMsbD_ofFn_fin 64 _ ⟨p, by omega⟩

/-- `y<j> = u<P1[P2[j]]>` (R105). -/
theorem getMsbD_permute (u : HalfBlock) {j a : Fin 64} (ha : T.raw.p2[j].toNat = a.val) :
    (permute T u).getMsbD j = u.getMsbD T.raw.p1[a].toNat := by
  rw [permute, Bits.getMsbD_gather, ha, Bits.getMsbD_gather]

/-- F sees the half-block and the round key only in their mixed value (R106, R107). -/
theorem roundF_congr {h h' : HalfBlock} {k k' : RoundKey} (hm : mix T h k = mix T h' k') :
    roundF T h k = roundF T h' k' := by
  rw [roundF, roundF, hm]

/-- The two pairs of R107 have one mixed value, all ones. -/
theorem mix_zero_allOnes : mix T 0 (BitVec.allOnes 88) = mix T (BitVec.allOnes 64) 0 := by
  have hexp : ∀ p : Fin 88, T.raw.exp[p].toNat < 64 := fun p => T.raw.exp[p].isLt
  rw [mix, mix, expand, expand, Bits.gather_zero, Bits.gather_allOnes _ hexp, BitVec.xor_comm]

end Stages

/-- Settles O37: the shared checks, and the completion that stores F of FIN and FRK. -/
theorem fevalChecksAndCompletes : Obligations.FevalChecksAndCompletes := by
  refine ⟨fun _ => decode_eq_command_iff, fun s hb => ?_,
    fun s T hb hp hT => ⟨freeWork s.draws, s.draws + 1, ?_⟩⟩
  · rw [exec_idle .feval s hb, present_eq_acceptedWithTables (by decide) (by decide)]
  · rw [exec_completes hb hp (withTables_some hT)]
    rfl

/-- Settles O45: a gather and an XOR by position, and the check of EXP that every table set passes. -/
theorem expansionAndKeyMixing : Obligations.ExpansionAndKeyMixing := fun T h _ =>
  ⟨fun p => Bits.getMsbD_gather T.raw.exp h p, fun _ => BitVec.getMsbD_xor, T.exp_ne_in_group⟩

/-- Settles O46: the chunk is a slice, and the row and the column are numbers by their digits. -/
theorem laneRowsAndColumns : Obligations.LaneRowsAndColumns :=
  ⟨getMsbD_chunk, fun c => ⟨toNat_laneRow c, toNat_laneCol c⟩⟩

/-- Settles O47: position `8i + t` of the result is position `t` of lane `i`, bit `7 - t` of its cell. -/
theorem substitutionByLanes : Obligations.SubstitutionByLanes := by
  intro T m i t
  have hi : (8 * i.val + t.val) / 8 = i.val := by omega
  have ht : (8 * i.val + t.val) % 8 = t.val := by omega
  rw [getMsbD_substitute T m hi, ht, ← Bits.getLsbD_sub_eq_getMsbD _ _ t.isLt]
  rfl

/-- Settles O48: the two gathers, the outer one by P2. -/
theorem permutationsInOrder : Obligations.PermutationsInOrder := fun T u _ _ ha => getMsbD_permute T u ha

/-- Settles O49: F is a function of the mixed value, and each output bit is traced back through P2, P1 and one lane. -/
theorem outputBitDependsOnOneLane : Obligations.OutputBitDependsOnOneLane := by
  refine ⟨fun T _ _ _ _ hm => roundF_congr T hm, fun T => roundF_congr T (mix_zero_allOnes T),
    fun T h k j a i ha hi => ?_, fun T m _ _ hm => lane_congr T m hm⟩
  rw [roundF, getMsbD_permute T _ ha, getMsbD_substitute T _ hi]

end Machine

end Sys2Proof
end

section
/-! SUPPORT. The Feistel engine (44_feistel_engine.md R110 to R113, R117, R118): its rounds one at a time, and the
reversed key order that undoes them. -/

namespace Sys2Proof.Machine

/-- The two halves exchanged. -/
def Halves.swap (h : Halves) : Halves := { left := h.right, right := h.left }

section Engine

variable (T : CipherTables) (ks : Vector RoundKey 42)

theorem runRounds_cons (n : Fin 42) (ord : List (Fin 42)) (h : Halves) :
    runRounds T ks (n :: ord) h = runRounds T ks ord (feistelRound T ks[n] h) := rfl

theorem runRounds_concat (n : Fin 42) (ord : List (Fin 42)) (h : Halves) :
    runRounds T ks (ord ++ [n]) h = feistelRound T ks[n] (runRounds T ks ord h) := by
  simp [runRounds]

/-- A round undoes itself on exchanged halves, whatever F is: F sees the same half twice, and the XORs cancel (R117). -/
theorem feistelRound_swap_feistelRound (k : RoundKey) (h : Halves) :
    feistelRound T k (feistelRound T k h).swap = h.swap := by
  have hcancel : roundF T h.right k ^^^ (roundF T h.right k ^^^ h.left) = h.left := by
    rw [← BitVec.xor_assoc, BitVec.xor_self, BitVec.zero_xor]
  simp only [feistelRound, Halves.swap, hcancel]

/-- The rounds in reverse key order undo the rounds on exchanged halves (R117). -/
theorem runRounds_reverse_swap (ord : List (Fin 42)) (h : Halves) :
    runRounds T ks ord.reverse (runRounds T ks ord h).swap = h.swap := by
  induction ord generalizing h with
  | nil => rfl
  | cons n ord ih =>
    rw [List.reverse_cons, runRounds_concat, runRounds_cons, ih, feistelRound_swap_feistelRound]

/-- The engine in reverse key order undoes the engine, for any keys in any order (R117). -/
theorem feistel_reverse_feistel (ord : List (Fin 42)) (B : Block) :
    feistel T (feistel T B ks ord) ks ord.reverse = B := by
  have hsplit : splitBlock (feistel T B ks ord) = (runRounds T ks ord (splitBlock B)).swap := splitBlock_joinHalves _
  rw [feistel, hsplit, runRounds_reverse_swap]
  exact joinHalves_splitBlock_swap B

theorem feistel_bijective (ord : List (Fin 42)) : Function.Bijective fun B => feistel T B ks ord := by
  refine Function.bijective_iff_has_inverse.mpr ⟨fun B => feistel T B ks ord.reverse,
    fun B => feistel_reverse_feistel T ks ord B, fun B => ?_⟩
  simpa using feistel_reverse_feistel T ks ord.reverse B

/-- The decryption order takes index `41 - n` where the encryption order takes `n` (R113). -/
theorem decryptOrder_eq_map_rev : decryptOrder = encryptOrder.map Fin.rev := List.finRange_reverse

/-- With a palindromic schedule the two orders take the same keys (R118). -/
theorem feistel_decryptOrder_of_palindrome (hks : ∀ r : Fin 42, ks[r] = ks[r.rev]) (B : Block) :
    feistel T B ks encryptOrder = feistel T B ks decryptOrder := by
  simp only [feistel, runRounds, decryptOrder_eq_map_rev, List.foldl_map, ← hks]

/-- The halves after the first `n` rounds of the order `ord` (R113). -/
def halvesAfter (B : Block) (ord : List (Fin 42)) (n : Nat) : Halves := runRounds T ks (ord.take n) (splitBlock B)

theorem halvesAfter_succ (B : Block) {ord : List (Fin 42)} {n : Nat} (h : n < ord.length) :
    halvesAfter T ks B ord (n + 1) = feistelRound T ks[ord[n]] (halvesAfter T ks B ord n) := by
  rw [halvesAfter, List.take_succ_eq_append_getElem h, runRounds_concat, halvesAfter]

/-- The engine joins the halves after its last round (R112, R113). -/
theorem feistel_eq_joinHalves_halvesAfter (B : Block) (ord : List (Fin 42)) :
    feistel T B ks ord = joinHalves (halvesAfter T ks B ord ord.length) := by
  rw [feistel, halvesAfter, List.take_length]

theorem getMsbD_joinHalves_left (h : Halves) (t : Fin 64) : (joinHalves h).getMsbD t = h.right.getMsbD t := by
  rw [joinHalves, BitVec.getMsbD_append, if_neg (by omega)]

theorem getMsbD_joinHalves_right (h : Halves) (t : Fin 64) :
    (joinHalves h).getMsbD (64 + t.val) = h.left.getMsbD t := by
  rw [joinHalves, BitVec.getMsbD_append, if_pos (by omega), Nat.add_sub_cancel_left]

end Engine

/-- Either key order, from the index it takes in each round (R113). -/
theorem keyOrder_eq_map {ord : Fin 42 → Fin 42} (h : ord = id ∨ ord = Fin.rev) :
    (if ord = id then encryptOrder else decryptOrder) = (List.finRange 42).map ord := by
  rcases h with rfl | rfl
  · rw [if_pos rfl, List.map_id, encryptOrder]
  · have hne : (Fin.rev : Fin 42 → Fin 42) ≠ id := fun h => absurd (congrFun h 0) (by decide)
    rw [if_neg hne, decryptOrder_eq_map_rev, encryptOrder]

/-- Settles O50: the halves after each round, from the block's own to those the output joins. -/
theorem feistelRoundsInKeyOrder : Obligations.FeistelRoundsInKeyOrder := by
  intro T B ks ord hord
  rw [keyOrder_eq_map hord, feistel_eq_joinHalves_halvesAfter, List.length_map, List.length_finRange]
  generalize hkeys : (List.finRange 42).map ord = keys
  have hround : ∀ n : Fin 42,
      halvesAfter T ks B keys (n.val + 1) = feistelRound T ks[ord n] (halvesAfter T ks B keys n.val) := fun n => by
    subst hkeys
    have hkey : ((List.finRange 42).map ord)[n.val]'(by simp) = ord n := by simp
    rw [halvesAfter_succ T ks B (by simp)]
    simp only [hkey]
  refine ⟨fun n => (halvesAfter T ks B keys n).left, fun n => (halvesAfter T ks B keys n).right, fun t => ⟨?_, ?_⟩,
    fun n => ⟨congrArg Halves.left (hround n), congrArg Halves.right (hround n)⟩,
    fun t => ⟨getMsbD_joinHalves_left _ t, getMsbD_joinHalves_right _ t⟩⟩
  · exact (Bits.getMsbD_slice B 0 64 t).trans (by rw [Nat.zero_add])
  · exact Bits.getMsbD_slice B 64 64 t

/-- Settles O52: the reversed order takes the same keys, so the engine undoes itself; a round key depends on its round
only through the amount, and the zero key's are all zero. -/
theorem palindromicScheduleIsInvolution : Obligations.PalindromicScheduleIsInvolution := by
  refine ⟨fun T ks B hks => ?_, fun T K hshift r => ?_, fun T r => ?_⟩
  · have hsame := feistel_decryptOrder_of_palindrome T ks hks
    refine ⟨hsame B, ?_⟩
    rw [hsame]
    exact feistel_reverse_feistel T ks encryptOrder B
  · have hamount : T.amount r = T.amount r.rev := congrArg BitVec.toNat (hshift r)
    rw [schedule_eq_roundKeyOfAmount, schedule_eq_roundKeyOfAmount, hamount]
  · obtain ⟨-, hfixed, -⟩ := roundKeyBitsAreKeyBits T
    rw [(hfixed r).1, (hfixed r.rev).1]

end Sys2Proof.Machine
end

section
/-! SUPPORT. A host program's run (30_encoding.md R73): one operand load and one command, each with what follows it. -/

namespace Sys2Proof

namespace Bits

/-- `u` with those of its words that `l` names replaced by the words of `v` (R45). -/
def setWords {n m : Nat} (v : Bits n) (l : List (Fin m)) (u : Bits n) : Bits n :=
  l.foldl (fun u w => setWordAt u w.val (wordAt v w.val)) u

@[simp] theorem setWords_nil {n m : Nat} (v u : Bits n) : setWords v ([] : List (Fin m)) u = u := rfl

@[simp] theorem setWords_cons {n m : Nat} (v u : Bits n) (w : Fin m) (l : List (Fin m)) :
    setWords v (w :: l) u = setWords v l (setWordAt u w (wordAt v w)) := rfl

/-- A position takes its value from `v` where its word is replaced, and keeps it elsewhere (R45). -/
theorem getMsbD_setWords {n m : Nat} (v : Bits n) (l : List (Fin m)) (u : Bits n) (i : Fin n) :
    (setWords v l u).getMsbD i = if ∃ w ∈ l, i.val / 32 = w.val then v.getMsbD i else u.getMsbD i := by
  induction l generalizing u with
  | nil => simp
  | cons w l ih =>
    have hw : (wordAt v w).getMsbD (i.val % 32) = v.getMsbD (32 * w.val + i.val % 32) :=
      getMsbD_wordAt v w ⟨i.val % 32, Nat.mod_lt _ (by omega)⟩
    rw [setWords_cons, ih, getMsbD_setWordAt, hw]
    by_cases hi : i.val / 32 = w.val
    · have hpos : 32 * w.val + i.val % 32 = i.val := by omega
      simp [hi, hpos]
    · simp [hi]

/-- Every word replaced gives `v`, whatever stood there (R45). -/
theorem setWords_finRange {n m : Nat} (hm : n ≤ 32 * m) (v u : Bits n) : setWords v (List.finRange m) u = v := by
  refine ext fun i => ?_
  have hi : ∃ w ∈ List.finRange m, i.val / 32 = w.val := ⟨⟨i.val / 32, by omega⟩, List.mem_finRange _, rfl⟩
  rw [getMsbD_setWords, if_pos hi]

end Bits

namespace Machine

theorem StepsTo.trans {a b : Nat} {s t u : State} (hst : StepsTo a s t) (htu : StepsTo b t u) :
    StepsTo (a + b) s u := by
  induction a generalizing s with
  | zero =>
    obtain rfl : s = t := hst
    rwa [Nat.zero_add]
  | succ a ih =>
    obtain ⟨s', hs, hst⟩ := hst
    rw [Nat.succ_add]
    exact ⟨s', hs, ih hst⟩

theorem programEvents_append (p q : List Stmt) : programEvents (p ++ q) = programEvents p ++ programEvents q := by
  simp [programEvents, programEncoding]

section Run

variable {s : State} {i : Instr} (rest : List Event)

/-- The step that stores the word a program's first statement writes to DIN (R55, R73). -/
theorem step_dinWrite (w : Fin 4) (d : Word) (p : List Stmt) (hb : s.status.busy = false) :
    step { s with inputs := programEvents (.wr (Reg.din w).addr d :: p) ++ rest } =
      .next { s with
        inputs := programEvents p ++ rest
        response := some .ok
        din := Bits.setWordAt s.din w d } :=
  step_storeWord s (.din w) d _ rfl nofun nofun nofun hb

/-- The words of `l`, written to DIN of an idle block, are stored one after another (R55). -/
theorem stepsTo_dinWrites (v : Block) (w : Fin 4) (l : List (Fin 4)) (hb : s.status.busy = false) :
    StepsTo (l.length + 1)
      { s with inputs := programEvents ((w :: l).map fun w => .wr (Reg.din w).addr (Bits.wordAt v w)) ++ rest }
      { s with inputs := rest, response := some .ok, din := Bits.setWords v (w :: l) s.din } := by
  induction l generalizing s w with
  | nil => exact ⟨_, step_dinWrite rest w _ [] hb, rfl⟩
  | cons w' l ih =>
    refine ⟨_, step_dinWrite rest w _ _ hb, ?_⟩
    rw [Bits.setWords_cons]
    exact ih (s := { s with response := some .ok, din := Bits.setWordAt s.din w (Bits.wordAt v w) }) w' hb

/-- `LDDIN v` on an idle block leaves `v` in DIN, and what follows it still to come (R73). -/
theorem stepsTo_ldDin (v : Block) (hb : s.status.busy = false) :
    StepsTo 4 { s with inputs := programEvents (Pseudo.ldDin v).expand ++ rest }
      { s with inputs := rest, response := some .ok, din := v } := by
  have hdin : Bits.setWords v (0 :: [1, 2, 3] : List (Fin 4)) s.din = v :=
    Bits.setWords_finRange (m := 4) (Nat.le_refl 128) v s.din
  have h := stepsTo_dinWrites rest v 0 [1, 2, 3] hb
  rwa [hdin] at h

/-- The step that completes the pending command stores what its `Exec` returns and ends it (R76). -/
theorem step_completes_next {s1 : State} {c : ErrCode} (h : s.completesNext i)
    (hrun : completionOf i s.popped = .ok (s1, c)) : step s = .next (s1.finish c) := by
  rw [step_completes h, complete, hrun]

/-- A command that passes its checks, and the Core's step after it (R74, R76). -/
theorem stepsTo_command {s1 : State} {c : ErrCode} (hb : s.status.busy = false) (hn : i ≠ .nop)
    (hf : s.status.fatal = false) (ht : i = .init ↔ s.status.tablesValid = false)
    (hrun : completionOf i (({ s with inputs := [], response := some .ok } : State).accept i) = .ok (s1, c)) :
    StepsTo 2 { s with inputs := programEvents (Pseudo.cmd i).expand ++ [.core] } (s1.finish c) := by
  have hpresent := step_present s i [.core] hb
  rw [present_accepts i { s with inputs := [.core], response := some .ok } hn hf ht] at hpresent
  exact ⟨_, hpresent, _, step_completes_next ⟨.inr rfl, rfl, rfl⟩ hrun, rfl⟩

end Run

end Machine

end Sys2Proof
end

section
/-! SUPPORT. The commands ENCRYPT and DECRYPT (44_feistel_engine.md R115 to R117). -/

namespace Sys2Proof.Machine

/-- An idle block with the table set `T` in place, as ENCRYPT and DECRYPT need it (R115, R116). -/
structure State.ReadyWith (s : State) (T : CipherTables) : Prop where
  idle : s.status.busy = false
  notFatal : s.status.fatal = false
  tablesValid : s.status.tablesValid = true
  tables : s.tm = some T

section Cipher

variable {s : State} {T : CipherTables} {i : Instr}

/-- Presented to the idle block, a command that needs tables passes the shared checks or is rejected (R74). -/
theorem exec_eq_acceptedWithTables (hn : i ≠ .nop) (hi : i ≠ .init) (hb : s.status.busy = false) :
    exec i s = .next (acceptedWithTables i s) := by
  rw [exec_idle i s hb, present_eq_acceptedWithTables hn hi]

/-- Where the table set `T` is in place, ENCRYPT and DECRYPT derive the keys and run the engine over DIN, each in its
own key order (R115, R116). -/
theorem completionOf_cipher (hi : i = .encrypt ∨ i = .decrypt) (hT : s.tm = some T) :
    completionOf i s = .ok ({ s.deriveKeys T with
      dout := feistel T s.din (schedule s.key T) (if i = .encrypt then encryptOrder else decryptOrder) }, .none) := by
  rcases hi with rfl | rfl <;> exact withTables_some hT

/-- ENCRYPT or DECRYPT on a ready block, presented and then completed: KEY and the tables stay, and DOUT is the engine's
output (R115, R116). -/
theorem exists_stepsTo_cipher (hi : i = .encrypt ∨ i = .decrypt) (hs : s.ReadyWith T) :
    ∃ t : State, StepsTo 2 { s with inputs := programEvents (Pseudo.cmd i).expand ++ [.core] } t ∧
      t.ReadyWith T ∧ t.key = s.key ∧
      t.dout = feistel T s.din (schedule s.key T) (if i = .encrypt then encryptOrder else decryptOrder) ∧
      t.status.err = 0 ∧ t.status.done = true := by
  have hn : i ≠ .nop := by rintro rfl; simp at hi
  have ht : i = .init ↔ s.status.tablesValid = false := by rcases hi with rfl | rfl <;> simp [hs.tablesValid]
  refine ⟨_, stepsTo_command hs.idle hn hs.notFatal ht (completionOf_cipher hi hs.tables), ?_, rfl, rfl, rfl, rfl⟩
  exact ⟨rfl, hs.notFatal, hs.tablesValid, hs.tables⟩

end Cipher

/-- Settles O35: the shared checks, and the completion that runs the engine in encryption order. -/
theorem encryptChecksAndCompletes : Obligations.EncryptChecksAndCompletes :=
  ⟨fun _ => decode_eq_command_iff, fun _ => exec_eq_acceptedWithTables (by decide) (by decide),
    fun s _ hb hp hT => ⟨freeWork s.draws, s.draws + 1, exec_completes hb hp (completionOf_cipher (.inl rfl) hT)⟩⟩

/-- Settles O36: the shared checks, and the completion that runs the engine in decryption order. -/
theorem decryptChecksAndCompletes : Obligations.DecryptChecksAndCompletes :=
  ⟨fun _ => decode_eq_command_iff, fun _ => exec_eq_acceptedWithTables (by decide) (by decide),
    fun s _ hb hp hT => ⟨freeWork s.draws, s.draws + 1, exec_completes hb hp (completionOf_cipher (.inr rfl) hT)⟩⟩

/-- Settles O51: the decryption order reverses the encryption order, and the run is ENCRYPT, the load of DIN with DOUT,
and DECRYPT on what they leave. -/
theorem decryptionInvertsEncryption : Obligations.DecryptionInvertsEncryption := by
  have hinv : ∀ (T : CipherTables) (K : CipherKey) (P : Block),
      feistel T (feistel T P (schedule K T) encryptOrder) (schedule K T) decryptOrder = P :=
    fun T K P => feistel_reverse_feistel T (schedule K T) encryptOrder P
  refine ⟨fun T K => ⟨hinv T K, feistel_bijective T _ encryptOrder, feistel_bijective T _ decryptOrder⟩,
    fun s T hb hf htv htm => ?_⟩
  obtain ⟨t1, hrun1, ht1, hkey1, hdout1, -, -⟩ :=
    exists_stepsTo_cipher (i := .encrypt) (.inl rfl) ⟨hb, hf, htv, htm⟩
  have hu : ({ t1 with response := some .ok, din := t1.dout } : State).ReadyWith T :=
    ⟨ht1.idle, ht1.notFatal, ht1.tablesValid, ht1.tables⟩
  obtain ⟨t2, hrun2, -, hkey2, hdout2, herr2, hdone2⟩ := exists_stepsTo_cipher (i := .decrypt) (.inr rfl) hu
  have hload := stepsTo_ldDin (programEvents (Pseudo.cmd .decrypt).expand ++ [.core]) t1.dout ht1.idle
  refine ⟨t1, t2, hrun1, ?_, hdout1, ?_, hkey2.trans hkey1, herr2, hdone2⟩
  · rw [programEvents_append, List.append_assoc]
    exact hload.trans hrun2
  · rw [hdout2, hkey1, hdout1]
    exact hinv T s.key s.din

end Sys2Proof.Machine
end

section
/-! SUPPORT. The bus errors, exactly (60_exceptions.md R123): when a transaction reaches no word, or one that the host
may not write, and the answer of every other transaction. -/

namespace Sys2Proof.Machine

/-- The words the host may not write: ID, DOUT, FOUT and the two windows (R53, R55). -/
theorem Reg.writable_eq_false_iff {r : Reg} :
    r.writable = false ↔
      r = .id ∨ (∃ w, r = .dout w) ∨ (∃ w, r = .fout w) ∨ (∃ q w, r = .rkw q w) ∨ 0x00400 ≤ r.offset := by
  cases r <;> simp [Reg.writable, Reg.offset] <;> omega

/-- The transactions of R123, cases 1 to 3, reach no word. -/
theorem target_eq_none_iff {a : Addr} {bits : Nat} :
    target a bits = none ↔ a.toNat % 4 ≠ 0 ∨ bits ≠ 32 ∨ Reg.ofAddr a = none := by
  unfold target
  split_ifs <;> simp_all [aligned]

/-- The writes of R123, cases 1 to 4, reach no word that the host may write. -/
theorem forall_target_readOnly_iff {a : Addr} {bits : Nat} :
    (∀ r, target a bits = some r → r.writable = false) ↔
      a.toNat % 4 ≠ 0 ∨ bits ≠ 32 ∨ Reg.ofAddr a = none ∨ ∃ r, Reg.ofAddr a = some r ∧ r.writable = false := by
  cases ht : target a bits with
  | none =>
    have herr := target_eq_none_iff.mp ht
    simp only [reduceCtorEq, false_implies, implies_true, true_iff]
    tauto
  | some r =>
    obtain ⟨rfl, rfl⟩ := target_some ht
    simp [r.offset_aligned]

section BusErrors

variable {s : State} {a : Addr} {bits : Nat} {d : Word} {r : Reg}

/-- A read that reaches no word is a bus error (R123). -/
theorem step_readErr (h : s.inputs.head? = some (.bus (.read a bits))) (ht : target a bits = none) :
    step s = .next s.popped.busErr := by
  rw [step_read h]
  simp [busRead, ht]

/-- A write that reaches no word, or a read-only one, is a bus error, busy or not (R123). -/
theorem step_writeErr (h : s.inputs.head? = some (.bus (.write a bits d)))
    (hro : ∀ r, target a bits = some r → r.writable = false) : step s = .next s.popped.busErr := by
  rw [step_write h]
  cases ht : target a bits with
  | none => simp [busWrite, ht, actionOutcome]
  | some r => simp [busWrite, ht, hro r ht, actionOutcome]

/-- A write to a word the host may write answers OK, whatever it does (R55, R124). -/
theorem step_write_answersOk (h : s.nextWrites r d) (hw : r.writable = true) :
    ∃ s', step s = .next s' ∧ s'.response = some .ok := by
  by_cases hc : r = .ctrl
  · subst hc
    refine ⟨_, step_ctrlWrite h, ?_⟩
    unfold writeCtrl
    split <;> rfl
  by_cases hs : r = .status
  · subst hs
    exact ⟨_, step_statusWrite h, rfl⟩
  cases hb : s.status.busy with
  | true => exact ⟨_, step_droppedWrite h hb hw hc hs, rfl⟩
  | false =>
    by_cases hm : r = .cmd
    · subst hm
      cases hd : decode d with
      | illegal => exact ⟨_, step_illegalWord h hb hd, rfl⟩
      | command i =>
        obtain ⟨-, -, -, -, -, -, -, -, -, -, -, -, -, hresp, -⟩ := present_frame i (s.popped.respond .ok)
        exact ⟨_, step_commandWord h hb hd, hresp⟩
    · obtain ⟨-, -, -, -, -, -, -, -, -, -, hresp⟩ := State.storeWord_frame r d (s.popped.respond .ok)
      exact ⟨_, step_dataWrite h hb hw hc hs hm, hresp⟩

end BusErrors

/-- Settles O8: a transaction that reaches no word, or a write to a read-only one, is a bus error, and every other
transaction is answered. -/
theorem busErrorsAreExactAndSilent : Obligations.BusErrorsAreExactAndSilent := by
  simp only [Obligations.BusErrorsAreExactAndSilent, ← Reg.writable_eq_false_iff, ← forall_target_readOnly_iff,
    ← target_eq_none_iff]
  refine ⟨fun s a bits h => ⟨step_readErr h, fun hok => ?_⟩, fun s a bits d h => ⟨step_writeErr h, fun hok => ?_⟩⟩
  · obtain ⟨r, ht⟩ := Option.ne_none_iff_exists'.mp hok
    exact step_read_answers (nextReads_of_target h ht)
  · push Not at hok
    obtain ⟨r, ht, hw⟩ := hok
    exact step_write_answersOk (nextWrites_of_target h ht) (by simpa using hw)

end Sys2Proof.Machine
end

section
/-! SUPPORT. Overrun (60_exceptions.md R124): what a step does to OVR. -/

namespace Sys2Proof.Machine

/-- OVR, once set, is cleared only by a reset or a STATUS write of bit 5 (R35, R124). -/
theorem step_keepsOvr {s s' : State} (h : step s = .next s') (ho : s.status.ovr = true) (hr : s.resetsNext = false) :
    s'.status.ovr = true ∨ ∃ d : Word, s.nextWrites .status d ∧ d.getLsbD 5 = true := by
  have e := step_effect h
  generalize he : s.inputs.head? = ev at e
  generalize hp : s.popped = p at e
  have hop : p.status.ovr = true := hp ▸ ho
  cases e with
  | nothing | readErr | writeErr | readData | readDraw | irqEnable | illegal => exact .inl hop
  | dropped => exact .inl rfl
  | store _ a bits d r =>
    obtain ⟨-, -, -, hstatus, -⟩ := State.storeWord_frame r d (p.respond .ok)
    exact .inl (hstatus ▸ hop)
  | presented _ a bits d i =>
    obtain ⟨-, -, -, -, -, -, -, -, -, -, -, -, -, -, -, -, -, hovr⟩ := present_frame i (p.respond .ok)
    exact .inl (hovr.trans hop)
  | completed _ _ s1 i c _ _ _ hrun =>
    obtain ⟨-, -, -, -, -, -, -, -, -, hovr, -⟩ := completion_frame hrun
    exact .inl (hovr.trans hop)
  | statusClear _ a bits d ht =>
    cases hd : d.getLsbD 5 with
    | true => exact .inr ⟨d, nextWrites_of_target he ht, hd⟩
    | false => exact .inl (by rw [Status.writeOneToClear, hop, hd]; rfl)
  | resetPin => cases hr.symm.trans (resetsNext_iff.mpr (.inl he))
  | softReset _ a bits d ht hd =>
    cases hr.symm.trans (resetsNext_iff.mpr (.inr ⟨d, nextWrites_of_target he ht, hd⟩))

/-- Settles O19: the write is dropped with OVR set, and no step but the two named ones clears OVR. -/
theorem overrunIsRecordedAndSticky : Obligations.OverrunIsRecordedAndSticky := by
  refine ⟨fun s r d h hb hr => ⟨_, rfl, ?_, rfl⟩, fun s s' ho h hr => step_keepsOvr h ho hr⟩
  have hdropped : r.writable = true ∧ r ≠ .ctrl ∧ r ≠ .status := by
    rcases hr with rfl | rfl | rfl | ⟨w, rfl⟩ | ⟨w, rfl⟩ | ⟨w, rfl⟩ | ⟨w, rfl⟩ <;> exact ⟨rfl, nofun, nofun⟩
  obtain ⟨hw, hc, hs⟩ := hdropped
  exact step_droppedWrite h hb hw hc hs

end Sys2Proof.Machine
end

section
/-! SUPPORT. The interrupt output (60_exceptions.md R125): its value after each step, by the agents' actions. -/

namespace Sys2Proof.Machine

section Irq

variable {s s' : State} {w d : Word}

/-- Either reset source drops `irq` (R125, R138). -/
theorem irq_reset (h : step s = .next s') (hr : s.resetsNext = true) : s'.irq = false := by
  obtain ⟨t, rfl⟩ := step_resets_eq h hr
  rfl

/-- The completion of a command sets DONE, so that `irq` is IRQ_EN (R76, R125). -/
theorem irq_completed (h : step s = .next s') (hc : s.coreNext) (hb : s.status.busy = true) : s'.irq = s.irqEn := by
  obtain ⟨i, hi⟩ := completesNext_of_step h hc hb
  obtain ⟨s1, c, hrun, rfl⟩ := step_completes_ok h hi
  obtain ⟨-, -, -, -, -, hen, -⟩ := completion_frame hrun
  simp [hen]

/-- A word written to CMD of the idle block sets DONE unless its command is accepted (R74, R125). -/
theorem irq_commandWord (h : step s = .next s') (hw : s.nextWrites .cmd w) (hb : s.status.busy = false) :
    s'.irq = (!s'.status.busy && s.irqEn) := by
  cases hd : decode w with
  | illegal =>
    rw [step_illegalWord hw hb hd, Host.Outcome.next.injEq] at h
    subst h
    simp [hb]
  | command i =>
    rw [step_commandWord hw hb hd, Host.Outcome.next.injEq] at h
    subst h
    obtain ⟨-, -, -, -, -, -, -, hen, -⟩ := present_frame i (s.popped.respond .ok)
    have hdone := present_done i (s.popped.respond .ok) hb
    rw [State.irq_eq, hdone, hen]
    rfl

/-- A write to STATUS keeps `irq` unless it clears DONE (R55, R125). -/
theorem irq_statusWrite (h : step s = .next s') (hd : s.nextWrites .status d) :
    s'.irq = (s.irq && !d.getLsbD 1) := by
  rw [step_statusWrite hd, Host.Outcome.next.injEq] at h
  subst h
  simp [Status.writeOneToClear, Bool.and_right_comm]

/-- A write to CTRL makes `irq` DONE gated by bit 0, and bit 1 drops it by a soft reset (R28, R29, R125). -/
theorem irq_ctrlWrite (h : step s = .next s') (hw : s.nextWrites .ctrl d) :
    s'.irq = (!d.getLsbD 1 && (s.status.done && d.getLsbD 0)) := by
  rw [step_ctrlWrite hw, Host.Outcome.next.injEq] at h
  subst h
  cases hd : d.getLsbD 1 with
  | true => rw [writeCtrl_softReset hd]; rfl
  | false => rw [writeCtrl_irqEn hd]; rfl

/-- A step that is neither a reset nor a write to CTRL keeps IRQ_EN (R28). -/
theorem step_keepsIrqEn (h : step s = .next s') (hset : ¬ s.setsIrqEnNext) : s'.irqEn = s.irqEn := by
  by_cases hr : s.nextReads .ctrl
  · rw [step_ctrlRead hr, Host.Outcome.next.injEq] at h
    subst h
    rfl
  · have hcomm : step s = mapNext (State.withIrqEn s.irqEn) (step s) := step_withIrqEn s s.irqEn hr hset
    rw [h, mapNext, Host.Outcome.next.injEq] at hcomm
    simpa [State.withIrqEn] using congrArg State.irqEn hcomm

/-- What a step makes of the interrupt output, by the agents' actions that R125 names. -/
inductive IrqCase (s s' : State) : Prop
  /-- either reset source -/
  | reset : s.resetsNext = true → s'.irq = false → IrqCase s s'
  /-- the Core completes the pending command -/
  | completed : s.status.busy = true → s'.status.busy = false → s'.irq = s.irqEn → IrqCase s s'
  /-- a word is written to CMD of the idle block -/
  | commandWord (w : Word) : s.nextWrites .cmd w → s.status.busy = false → s'.irq = (!s'.status.busy && s.irqEn) →
      IrqCase s s'
  /-- a write to STATUS -/
  | statusWrite (d : Word) : s.nextWrites .status d → s'.irq = (s.irq && !d.getLsbD 1) → IrqCase s s'
  /-- a write to CTRL -/
  | ctrlWrite (d : Word) : s.nextWrites .ctrl d → s'.irq = (!d.getLsbD 1 && (s.status.done && d.getLsbD 0)) →
      IrqCase s s'
  /-- anything else -/
  | kept : s'.irq = s.irq → IrqCase s s'

/-- Every step moves the interrupt output by one of the named actions or not at all (R125). -/
theorem step_irqCase (h : step s = .next s') : IrqCase s s' := by
  cases step_cases h with
  | reset t hr => exact .reset hr rfl
  | completed i s1 c hi =>
    obtain ⟨hc, hb, -⟩ := hi
    exact .completed hb rfl (irq_completed h hc hb)
  | presented w i hw hb => exact .commandWord w hw hb (irq_commandWord h hw hb)
  | illegalWord w hw hb => exact .commandWord w hw hb (irq_commandWord h hw hb)
  | statusWritten d hd => exact .statusWrite d hd (irq_statusWrite h hd)
  | quiet _ hk =>
    by_cases hset : s.setsIrqEnNext
    · rcases hset with hp | ⟨d, hw⟩
      · have hr := resetsNext_iff.mpr (.inl hp)
        exact .reset hr (irq_reset h hr)
      · exact .ctrlWrite d hw (irq_ctrlWrite h hw)
    · exact .kept (by rw [State.irq, State.irq, hk.done, step_keepsIrqEn h hset])

end Irq

/-- Settles O25: each named action gives `irq` its value, and no other step changes it. -/
theorem interruptRisesAndDrops : Obligations.InterruptRisesAndDrops := by
  refine ⟨fun s => by simp, fun s s' h => ⟨irq_completed h, fun w hw hb hb' => ?_, fun d hw h1 h0 => ?_,
    fun d hd h1 => ?_, fun d hw h0 => ?_, fun w hw hb hb' => ?_, irq_reset h⟩, fun s s' h hirq hirq' => ?_,
    fun s s' h hirq hirq' => ?_⟩
  · rw [irq_commandWord h hw hb, hb', Bool.not_false, Bool.true_and]
  · rw [irq_ctrlWrite h hw, h1, h0, Bool.not_false, Bool.true_and, Bool.and_true]
  · rw [irq_statusWrite h hd, h1, Bool.not_true, Bool.and_false]
  · rw [irq_ctrlWrite h hw, h0, Bool.and_false, Bool.and_false]
  · rw [irq_commandWord h hw hb, hb', Bool.not_true, Bool.false_and]
  · cases step_irqCase h with
    | reset _ e => cases e.symm.trans hirq'
    | completed hb hb' => exact .inl ⟨hb, hb'⟩
    | commandWord w hw hb => exact .inr (.inl ⟨hb, w, hw⟩)
    | statusWrite d hd e => rw [e, hirq] at hirq'; cases hirq'
    | ctrlWrite d hw e =>
      rw [e, Bool.and_eq_true, Bool.and_eq_true] at hirq'
      obtain ⟨-, -, h0⟩ := hirq'
      exact .inr (.inr ⟨d, hw, h0⟩)
    | kept e => cases (e.trans hirq).symm.trans hirq'
  · obtain ⟨hdone, hen⟩ : s.status.done = true ∧ s.irqEn = true := by simpa using hirq
    cases step_irqCase h with
    | reset hr => exact .inr (.inr (.inr hr))
    | completed _ _ e => cases (e.trans hen).symm.trans hirq'
    | commandWord w hw hb e =>
      rw [e, hen, Bool.and_true, Bool.not_eq_false'] at hirq'
      exact .inr (.inr (.inl ⟨w, hw, hirq'⟩))
    | statusWrite d hd e =>
      rw [e, hirq, Bool.true_and, Bool.not_eq_false'] at hirq'
      exact .inl ⟨d, hd, hirq'⟩
    | ctrlWrite d hw e =>
      cases h0 : d.getLsbD 0 with
      | false => exact .inr (.inl ⟨d, hw, h0⟩)
      | true =>
        rw [e, hdone, h0, Bool.and_true, Bool.and_true, Bool.not_eq_false'] at hirq'
        exact .inr (.inr (.inr (resetsNext_iff.mpr (.inr ⟨d, hw, hirq'⟩))))
    | kept e => cases (e.trans hirq).symm.trans hirq'

end Sys2Proof.Machine
end

section
/-! SUPPORT. What a reset leaves and what the windows then read (20_memory.md R56, R57, 70_reset_and_hazards.md R138). -/

namespace Sys2Proof.Machine

section Reset

variable {s t : State} {r : Reg}

/-- A round-key window word is a draw while `RK_VALID = 0` (R56). -/
theorem readReg_roundKeyWindow_invalid (hv : s.status.rkValid = false) (q : Fin 42) (w : Fin 3) :
    s.readReg (.rkw q w) = none := by
  simp [State.readReg, State.roundKeyWord, hv]

/-- A table-window word is a draw while `TABLES_VALID = 0` (R57). -/
theorem readReg_tableWindow_invalid (hv : s.status.tablesValid = false) (hr : 0x00400 ≤ r.offset) :
    s.readReg r = none := by
  obtain ⟨w, entry, hentry⟩ := readReg_tableWindow hr
  exact (hentry s).trans (tableWord_invalid entry hv)

/-- The state after a reset is `State.reset` but for `RKF` and the working registers, which R138 leaves unspecified, and
the model's own fields. -/
theorem eq_reset_of_isReset (h : t = State.reset ∨ t = s.performReset) :
    ∃ k w n es b, t = { State.reset with rkf := k, work := w, draws := n, inputs := es, response := b } := by
  rcases h with rfl | rfl
  · exact ⟨_, _, _, _, _, rfl⟩
  · exact ⟨_, _, _, _, _, rfl⟩

theorem Status.toWord_reset : Status.reset.toWord = 0x00000000#32 := by decide

end Reset

/-- Settles O53: the specified fields are those of `State.reset`, and with both VALID bits 0 the windows read draws. -/
theorem resetValues : Obligations.ResetValues := by
  intro s t h
  obtain ⟨k, w, n, es, b, rfl⟩ := eq_reset_of_isReset h
  refine ⟨rfl, rfl, rfl, rfl, rfl, rfl, rfl, rfl, Status.toWord_reset, rfl, rfl, rfl, rfl, rfl, rfl, rfl, rfl, rfl, rfl,
    rfl, readReg_ctrl _, rfl, fun r hr => ?_⟩
  rcases hr with htable | ⟨q, w, rfl⟩
  · exact readReg_tableWindow_invalid rfl htable
  · exact readReg_roundKeyWindow_invalid rfl q w

end Sys2Proof.Machine
end

section
/-! SUPPORT. Decode against encode, and register words against their addresses (30_encoding.md R64 to R66, 20_memory.md
R53). -/

namespace Sys2Proof.Machine

/-- Settles O3: a word decodes to a command exactly when it is its word, and an aligned address leads to a register word
exactly when it is its address. -/
theorem commandsAndAddressesRoundTrip : Obligations.CommandsAndAddressesRoundTrip :=
  ⟨fun _ => decode_eq_command_iff.mpr rfl, fun _ _ h => (decode_eq_command_iff.mp h).symm,
    fun r => ⟨r.aligned_addr, r.ofAddr_addr⟩, fun _ _ ha => (Reg.ofAddr_eq_some_iff ha).mp⟩

/-- Settles O2: seven numbers, decoded one by one. -/
theorem tableWordsDecode : Obligations.TableWordsDecode := by
  unfold Obligations.TableWordsDecode
  decide

end Sys2Proof.Machine
end

section
/-! SUPPORT. The invariant of the block (10_state.md R38): what it asks of a block with nothing pending, and that the
record of a command's end and everything outside STATUS, PEND and the two internal memories leave it alone. -/

namespace Sys2Proof.Machine

section Invariant

variable {s s' s1 : State} {i : Instr} {c : ErrCode}

/-- While nothing is pending, the clauses about BUSY and PEND say nothing more. -/
theorem State.Inv.of_idle (hbusy : s.status.busy = false) (hpend : s.pend = none)
    (hrk : s.status.rkValid = true → s.status.tablesValid = true)
    (hfatal : s.status.fatal = true → s.status.tablesValid = false)
    (htables : s.status.tablesValid = true ↔ s.tm ≠ none)
    (hkeys : s.status.rkValid = true → ∃ K T, s.tm = some T ∧ s.rkf = schedule K T)
    (herr : s.status.err.toNat ≤ 5) : s.Inv where
  rkNeedsTables := hrk
  fatalNoTables := hfatal
  busyNotDone := by simp [hbusy]
  busyIffPending := by simp [hbusy, hpend]
  initPending := by simp [hpend]
  tablesPending := by simp [hpend]
  nopNeverPending := by simp [hpend]
  tablesHeld := htables
  scheduleHeld := hkeys
  errAssigned := herr

/-- After a reset the invariant holds whatever `RKF` and the working registers are (R138). -/
theorem inv_of_reset (rkf : Vector RoundKey 42) (work : WorkRegs) (draws : Nat) (inputs : List Event)
    (response : Option BusResponse) :
    State.Inv { State.reset with
      rkf := rkf, work := work, draws := draws, inputs := inputs, response := response } :=
  .of_idle rfl rfl nofun nofun (by simp [State.reset, Status.reset]) nofun (Nat.zero_le 5)

theorem inv_performReset (s : State) : s.performReset.Inv := inv_of_reset _ _ _ _ _

/-- The invariant speaks of STATUS but for OVR, of PEND and of the two internal memories. -/
theorem State.Inv.of_keepsControl (h : s.Inv) (hk : KeepsControl s s') : s'.Inv := by
  obtain ⟨hbusy, hdone, herr, htv, hrk, hfatal, hpend, htm, hrkf⟩ := hk
  constructor <;> simp only [hbusy, hdone, herr, htv, hrk, hfatal, hpend, htm, hrkf]
  exacts [h.rkNeedsTables, h.fatalNoTables, h.busyNotDone, h.busyIffPending, h.initPending, h.tablesPending,
    h.nopNeverPending, h.tablesHeld, h.scheduleHeld, h.errAssigned]

/-- A new record of how the last command ended keeps the invariant, if DONE stays 0 while BUSY and ERR is assigned
(R38, R119). -/
theorem State.Inv.withRecord (h : s.Inv) {done : Bool} {err : BitVec 4} (hdone : s.status.busy = true → done = false)
    (herr : err.toNat ≤ 5) : State.Inv { s with status := { s.status with done := done, err := err } } :=
  { h with busyNotDone := hdone, errAssigned := herr }

theorem ErrCode.code_le_five (hc : c ≠ .lengthMismatch) : c.code.toNat ≤ 5 := by
  cases c with
  | lengthMismatch => exact absurd rfl hc
  | _ => decide

/-- A rejected word keeps the invariant of an idle block (R75). -/
theorem State.Inv.reject (h : s.Inv) (hb : s.status.busy = false) (hc : c ≠ .lengthMismatch) : (s.reject c).Inv :=
  h.withRecord (by simp [hb]) (ErrCode.code_le_five hc)

/-- An accepted command becomes pending with the tables it needs: none for INIT, and a table set for the others
(R38, R74). -/
theorem State.Inv.accept (h : s.Inv) (hn : i ≠ .nop) (hfatal : s.status.fatal = false)
    (ht : i = .init ↔ s.status.tablesValid = false) : (s.accept i).Inv :=
  { h with
    busyNotDone := fun _ => rfl
    busyIffPending := by simp
    initPending := fun hi => ⟨ht.mp (Option.some.inj hi), hfatal⟩
    tablesPending := fun j hj hne => by
      obtain rfl := Option.some.inj hj
      simpa using mt ht.mpr hne
    nopNeverPending := fun hi => hn (Option.some.inj hi)
    errAssigned := Nat.zero_le 5 }

/-- Every outcome of a presentation to the idle block keeps the invariant (R74, R75, R81). -/
theorem State.Inv.present (h : s.Inv) (hb : s.status.busy = false) (i : Instr) : (s.present i).Inv := by
  rcases present_cases i s with ⟨-, e⟩ | ⟨-, -, e⟩ | ⟨-, -, -, e⟩ | ⟨-, -, -, -, e⟩ | ⟨rfl, hf, ht, e⟩ |
    ⟨hn, hi, hf, ht, e⟩ <;> rw [e]
  · exact h.withRecord (by simp [hb]) (by decide)
  · exact h.reject hb nofun
  · exact h.reject hb nofun
  · exact h.reject hb nofun
  · exact h.accept nofun hf (by simp [ht])
  · exact h.accept hn hf (by simp [hi, ht])

/-- A completion returns no code above 5 (R36, R90). -/
theorem completion_code_le_five (hrun : completionOf i s = .ok (s1, c)) : c.code.toNat ≤ 5 := by
  rw [completion_code hrun]
  split <;> decide

/-- INIT leaves a table set with TABLES_VALID, or none with FATAL (R90). -/
theorem State.Inv.finish_init (h : s.Inv) (hp : s.pend = some .init) (hrun : completionOf .init s = .ok (s1, c)) :
    (s1.finish c).Inv := by
  obtain ⟨htv, hfatal⟩ := h.initPending hp
  have hrk : s.status.rkValid = false := Bool.eq_false_iff.mpr fun hv => by simp [h.rkNeedsTables hv] at htv
  have hstatus := (completion_init hrun).1
  refine .of_idle rfl rfl ?_ ?_ ?_ ?_ (completion_code_le_five hrun)
  · simp [hstatus, hrk]
  · simp [hstatus, htv, hfatal]
  · simp [hstatus, htv, completion_init_tm hrun]
  · simp [hstatus, hrk]

/-- DERIVE, ENCRYPT and DECRYPT leave the schedule of KEY under the tables held (R33). -/
theorem State.Inv.finish_roundKeys (h : s.Inv) (hp : s.pend = some i) (hi : writesRoundKeys i = true)
    (hrun : completionOf i s = .ok (s1, c)) : (s1.finish c).Inv := by
  have htv := h.tablesPending i hp (ne_init_of_writesRoundKeys hi)
  obtain ⟨T, hT, hT1, hrkf, hstatus, -⟩ := completion_derivesKeys hrun hi
  refine .of_idle rfl rfl ?_ ?_ ?_ ?_ (completion_code_le_five hrun)
  · simp [hstatus, htv]
  · simpa [hstatus] using h.fatalNoTables
  · simp [hstatus, htv, hT1]
  · exact fun _ => ⟨s.key, T, hT1, hrkf⟩

/-- FEVAL leaves STATUS, the tables and the round keys as they were (R109). -/
theorem State.Inv.finish_feval (h : s.Inv) (hrun : completionOf .feval s = .ok (s1, c)) : (s1.finish c).Inv := by
  obtain ⟨T, -, he⟩ := withTables_ok hrun
  cases he
  exact .of_idle rfl rfl h.rkNeedsTables h.fatalNoTables h.tablesHeld h.scheduleHeld (completion_code_le_five hrun)

/-- Every completion keeps the invariant (R76). -/
theorem State.Inv.finish (h : s.Inv) (hp : s.pend = some i) (hrun : completionOf i s = .ok (s1, c)) :
    (s1.finish c).Inv := by
  rcases completion_kinds hrun with rfl | rfl | hi
  · exact h.finish_init hp hrun
  · exact h.finish_feval hrun
  · exact h.finish_roundKeys hp hi hrun

theorem State.Inv.popped (h : s.Inv) : s.popped.Inv := h.of_keepsControl (by constructor <;> rfl)

theorem State.Inv.respond (h : s.Inv) (r : BusResponse) : (s.respond r).Inv :=
  h.of_keepsControl (by constructor <;> rfl)

/-- A write to STATUS can only clear DONE, and the invariant does not speak of OVR (R55). -/
theorem State.Inv.writeOneToClear (h : s.Inv) (d : Word) :
    State.Inv { s with status := s.status.writeOneToClear d } := by
  have hdone : s.status.busy = true → (s.status.done && !d.getLsbD 1) = false := fun hb => by simp [h.busyNotDone hb]
  exact (h.withRecord hdone h.errAssigned).of_keepsControl (by constructor <;> rfl)

end Invariant

/-- Settles O55: with nothing pending and both VALID bits 0, no clause asks for anything. -/
theorem invHoldsAtReset : Obligations.InvHoldsAtReset := inv_of_reset _ _ _ _ _

/-- Settles O56: each of the agents' actions keeps the invariant. -/
theorem everyStepKeepsInv : Obligations.EveryStepKeepsInv := by
  intro s s' hinv h
  have hanswered : (s.popped.respond .ok).Inv := hinv.popped.respond .ok
  cases step_cases h with
  | reset t => exact inv_performReset t
  | completed i s1 c hi hrun =>
    obtain ⟨-, -, hp⟩ := hi
    exact hinv.popped.finish hp hrun
  | presented w i hw hb => exact hanswered.present hb i
  | illegalWord w hw hb => exact hanswered.reject hb nofun
  | statusWritten d => exact hanswered.writeOneToClear d
  | quiet _ hk => exact hinv.of_keepsControl hk

end Sys2Proof.Machine
end

section
/-! SUPPORT. Runs of the block (10_state.md R18, 40_command_protocol.md R78): every step from a state with the invariant
goes on, takes the oldest event, and keeps a command pending until its completion. -/

namespace Sys2Proof.Machine

section Runs

variable {s s' : State} {i : Instr} {e : Option Event}

/-- Every command but NOP has a completion where the table memory holds a table set (R40, R81). -/
theorem completion_ok_of_tables {T : CipherTables} (hT : s.tm = some T) (hn : i ≠ .nop) :
    ∃ r, completionOf i s = .ok r := by
  cases i with
  | nop => exact absurd rfl hn
  | init => exact ⟨_, rfl⟩
  | _ => exact ⟨_, withTables_some hT⟩

/-- The command pending under the invariant has a completion (R38, R81). -/
theorem State.Inv.completion_ok (h : s.Inv) (hp : s.pend = some i) : ∃ r, completionOf i s = .ok r := by
  by_cases hi : i = .init
  · subst hi
    exact ⟨_, rfl⟩
  · obtain ⟨T, hT⟩ := Option.ne_none_iff_exists'.mp (h.tablesHeld.mp (h.tablesPending i hp hi))
    exact completion_ok_of_tables hT fun hn => h.nopNeverPending (hn ▸ hp)

/-- Under the invariant the Core's step of a busy block completes the pending command (R76). -/
theorem State.Inv.step_core_busy (h : s.Inv) (hc : s.coreNext) (hb : s.status.busy = true) :
    ∃ (s1 : State) (c : ErrCode), step s = .next (s1.finish c) := by
  obtain ⟨i, hp⟩ := Option.ne_none_iff_exists'.mp (h.busyIffPending.mp hb)
  obtain ⟨⟨s1, c⟩, hrun⟩ := h.popped.completion_ok hp
  exact ⟨s1, c, step_completes_next ⟨hc, hb, hp⟩ hrun⟩

theorem State.Inv.goes_core (h : s.Inv) (hc : s.coreNext) : s.Goes := by
  cases hb : s.status.busy with
  | true =>
    obtain ⟨s1, c, hs⟩ := h.step_core_busy hc hb
    exact ⟨_, hs⟩
  | false => exact ⟨_, step_coreIdle hc hb⟩

/-- Every bus transaction is answered, in any phase (R44, R123). -/
theorem goes_of_bus {t : Transaction} (h : s.inputs.head? = some (.bus t)) : s.Goes := by
  cases t with
  | read a bits =>
    cases ht : target a bits with
    | none => exact ⟨_, step_readErr h ht⟩
    | some r =>
      obtain ⟨d, n, hs⟩ := step_read_answers (nextReads_of_target h ht)
      exact ⟨_, hs⟩
  | write a bits d =>
    by_cases hro : ∀ r, target a bits = some r → r.writable = false
    · exact ⟨_, step_writeErr h hro⟩
    · push Not at hro
      obtain ⟨r, ht, hw⟩ := hro
      obtain ⟨s', hs, -⟩ := step_write_answersOk (nextWrites_of_target h ht) (by simpa using hw)
      exact ⟨s', hs⟩

/-- What the next event is: the Core's turn, a transaction, or the reset input (R18). -/
theorem nextEvent_cases (s : State) :
    s.coreNext ∨ (∃ t, s.inputs.head? = some (.bus t)) ∨ s.inputs.head? = some .resetPin := by
  cases he : s.inputs.head? with
  | none => exact .inl (coreNext_of_head (.inl he))
  | some e =>
    cases e with
    | core => exact .inl (coreNext_of_head (.inr he))
    | bus t => exact .inr (.inl ⟨t, rfl⟩)
    | resetPin => exact .inr (.inr rfl)

/-- An effect leaves the events still to come as they are (R18). -/
theorem Effect.inputs_eq (h : Effect e s s') : s'.inputs = s.inputs := by
  cases h with
  | store _ a bits d r =>
    obtain ⟨-, -, -, -, -, -, -, -, -, hinputs, -⟩ := State.storeWord_frame r d (s.respond .ok)
    exact hinputs
  | presented _ a bits d i =>
    obtain ⟨-, -, -, -, -, -, -, -, -, -, -, -, hinputs, -⟩ := present_frame i (s.respond .ok)
    exact hinputs
  | completed _ _ s1 i c _ _ _ hrun => exact (completion_keeps_model hrun).1
  | _ => rfl

theorem step_inputs (h : step s = .next s') : s'.inputs = s.inputs.tail := (step_effect h).inputs_eq

/-- A command stays pending until the Core's step or a reset (R30, R78). -/
theorem step_staysBusy (h : step s = .next s') (hb : s.status.busy = true) (hr : s.resetsNext = false)
    (hc : ¬ s.coreNext) : s'.status.busy = true := by
  obtain ⟨-, -, hfalls, -⟩ := busyFromAcceptanceToCompletion
  by_contra hb'
  rcases hfalls s s' h hb (by simpa using hb') with hreset | ⟨hcore, -⟩
  · simp [hreset] at hr
  · exact hc hcore

end Runs

/-- Settles O57: the Core's turn, a transaction and the reset input each lead to a next state. -/
theorem noStepStopsUnderInv : Obligations.NoStepStopsUnderInv := by
  intro s hinv
  rcases nextEvent_cases s with hc | ⟨t, ht⟩ | hr
  · exact hinv.goes_core hc
  · exact goes_of_bus ht
  · exact ⟨_, step_resetPin hr⟩

/-- From a state with the invariant the block runs on for any number of steps. -/
theorem State.Inv.safeFor {s : State} (h : s.Inv) (k : Nat) : SafeFor k s := by
  induction k generalizing s with
  | zero => exact h
  | succ k ih =>
    obtain ⟨s', hs⟩ := noStepStopsUnderInv s h
    exact ⟨h, s', hs, ih (everyStepKeepsInv s s' h hs)⟩

/-- Settles O58: the invariant holds after a reset, and from it the run goes on. -/
theorem everyScheduleRunsSafely : Obligations.EveryScheduleRunsSafely :=
  fun rkf work draws es k => (inv_of_reset rkf work draws es none).safeFor k

/-- Settles O32, by induction on the events to come: the Core's turn completes the command, and any other event is taken
with the command still pending. -/
theorem pendingCommandCompletes : Obligations.PendingCommandCompletes := by
  intro s hinv hb hr
  induction hes : s.inputs generalizing s with
  | nil =>
    obtain ⟨s1, c, hs⟩ := hinv.step_core_busy (.inl hes) hb
    exact ⟨1, _, Nat.le_refl 1, ⟨_, hs, rfl⟩, rfl, rfl, rfl⟩
  | cons e es ih =>
    by_cases hc : s.coreNext
    · obtain ⟨s1, c, hs⟩ := hinv.step_core_busy hc hb
      exact ⟨1, _, by omega, ⟨_, hs, rfl⟩, rfl, rfl, rfl⟩
    · obtain ⟨s', hs⟩ := noStepStopsUnderInv s hinv
      have hreset : s.resetsNext = false := by simpa [State.resetsNext, hes] using hr e (by simp [hes])
      have hes' : s'.inputs = es := by rw [step_inputs hs, hes, List.tail_cons]
      obtain ⟨k, t, hk, hrun, ht⟩ := ih s' (everyStepKeepsInv s s' hinv hs) (step_staysBusy hs hb hreset hc)
        (fun e' he' => hr e' (by rw [hes]; exact List.mem_cons_of_mem e (hes' ▸ he'))) hes'
      exact ⟨k + 1, t, by rw [List.length_cons]; omega, ⟨s', hs, hrun⟩, ht⟩

end Sys2Proof.Machine
end

section
/-! SUPPORT. Outside a reset the outputs change at a completion alone (10_state.md R23, R24, R40, R41). -/

namespace Sys2Proof.Machine

section Outputs

variable {s s' : State}

/-- A step that is no reset and completes nothing leaves DOUT and FOUT (R23, R24). -/
theorem step_keepsOutputBlocks (h : step s = .next s') (hr : s.resetsNext = false)
    (hc : ∀ i, ¬ s.completesNext i) : s'.dout = s.dout ∧ s'.fout = s.fout := by
  have e := step_effect h
  generalize he : s.inputs.head? = ev at e
  generalize hp : s.popped = p at e
  cases e with
  | resetPin => exact absurd (resetsNext_iff.mpr (.inl he)) (by simp [hr])
  | softReset _ a bits d ht hd =>
    exact absurd (resetsNext_iff.mpr (.inr ⟨d, nextWrites_of_target he ht, hd⟩)) (by simp [hr])
  | completed _ _ s1 i c hcore hb hpend =>
    subst hp
    exact absurd ⟨coreNext_of_head (he ▸ hcore), hb, hpend⟩ (hc i)
  | store _ a bits d r =>
    subst hp
    obtain ⟨hdout, hfout, -⟩ := State.storeWord_frame r d (s.popped.respond .ok)
    exact ⟨hdout, hfout⟩
  | presented _ a bits d i =>
    subst hp
    obtain ⟨-, -, -, hdout, -, -, hfout, -⟩ := present_frame i (s.popped.respond .ok)
    exact ⟨hdout, hfout⟩
  | _ => subst hp; exact ⟨rfl, rfl⟩

end Outputs

/-- Settles O31: a completion changes only the outputs of its command, and any other step that is no reset none. -/
theorem outputsChangeOnlyAtCompletion : Obligations.OutputsChangeOnlyAtCompletion := by
  intro s s' h hr
  by_cases hex : ∃ i, s.completesNext i
  · obtain ⟨i, hi⟩ := hex
    obtain ⟨s1, c, hrun, rfl⟩ := step_completes_ok h hi
    obtain ⟨-, hb, hp⟩ := hi
    obtain ⟨-, -, -, -, -, -, -, -, -, -, hdout, hfout, htm, hrkf⟩ := completion_frame hrun
    simp only [hp, Option.some.injEq]
    exact ⟨fun hne => ⟨hb, rfl, hdout.resolve_left hne⟩, fun hne => ⟨hb, rfl, hfout.resolve_left hne⟩,
      fun hne => ⟨hb, rfl, htm.resolve_left hne⟩, fun hne => ⟨hb, rfl, hrkf.resolve_left hne⟩⟩
  · have hc : ∀ i, ¬ s.completesNext i := fun i hi => hex ⟨i, hi⟩
    obtain ⟨hdout, hfout⟩ := step_keepsOutputBlocks h hr hc
    obtain ⟨htm, hrkf, -⟩ := step_keepsTablesAndKeys h hr hc
    exact ⟨fun hne => absurd hdout hne, fun hne => absurd hfout hne, fun hne => absurd htm hne,
      fun hne => absurd hrkf hne⟩

end Sys2Proof.Machine
end

section
/-! SUPPORT. The steps of `exec` by the agents that cause them (10_state.md R18, 40_command_protocol.md R76, R79), and
the two reset sources (70_reset_and_hazards.md R137, R139). -/

namespace Sys2Proof.Machine

/-- Settles O5: the word goes to CMD of an idle block and is decoded there. -/
theorem stepRunsPresentedCommand : Obligations.StepRunsPresentedCommand := by
  intro s w i h hb hd
  rw [step_nextWrites s .cmd w h, busWrite_cmd s.popped w hb, presentWord, hd]
  rfl

/-- Settles O6: the Core runs what is pending, and nothing while the block is idle. -/
theorem stepRunsPendingCommand : Obligations.StepRunsPendingCommand := by
  refine fun s hc => ⟨fun i hb hp => ?_, step_coreIdle hc⟩
  rw [step_completes ⟨hc, hb, hp⟩, exec_pending i s.popped hb hp]

/-- A number that the opcode table decodes is a command word within 32 bits (R64, R72). -/
theorem decode_of_decodeTableWord {n w : Nat} {i : Instr} (h : decodeTableWord n w = some i) :
    decode (BitVec.ofNat 32 (w % 2 ^ n)) = .command i := by
  unfold decodeTableWord at h
  split at h
  · split at h
    · next j hj => rwa [Option.some.inj h] at hj
    · cases h
  · cases h

/-- Settles O7: the placed word is the next write to CMD. -/
theorem placedWordRunsNext : Obligations.PlacedWordRunsNext := fun s w i hb h =>
  stepRunsPresentedCommand (s.withFetchWord 32 w) _ i ⟨s.inputs, rfl⟩ hb (decode_of_decodeTableWord h)

/-- Settles O18: clearing a bit where the data word has one is keeping it where the data word has none. -/
theorem statusWriteClearsDoneAndOvr : Obligations.StatusWriteClearsDoneAndOvr := by
  have hclear : ∀ b m : Bool, (b && !m) = if m then false else b := by decide
  intro s d h
  rw [step_statusWrite h, Status.writeOneToClear, hclear, hclear]
  rfl

/-- Settles O28: a command that is not the pending one is dropped. -/
theorem otherCommandWhilePendingIsDropped : Obligations.OtherCommandWhilePendingIsDropped :=
  fun s i hb hp => exec_otherPending i s hb hp

/-- Settles O29: `Exec` of each command stops there, and the pending command contradicts a clause of the invariant. -/
theorem unreachableCompletionsStop : Obligations.UnreachableCompletionsStop := by
  refine ⟨fun s i hb hp hT hi => ⟨?_, fun hinv => ?_⟩, fun s hb hp => ⟨?_, fun hinv => hinv.nopNeverPending hp⟩⟩
  · have hrun : completionOf i s = .error .noTables := by
      rcases hi with rfl | rfl | rfl | rfl <;> exact withTables_none hT
    rw [exec_pending i s hb hp, complete, hrun]
  · have hne : i ≠ .init := by
      rintro rfl
      simp at hi
    exact hinv.tablesHeld.mp (hinv.tablesPending i hp hne) hT
  · rw [exec_pending .nop s hb hp]
    rfl

/-- Settles O54: both sources perform `Reset()`, which reads nothing that was pending. -/
theorem resetSourcesAgree : Obligations.ResetSourcesAgree := by
  refine fun s => ⟨step_resetPin, fun d h hd => ?_, _, _, _, rfl⟩
  rw [step_ctrlWrite h, writeCtrl_softReset hd]
  rfl

/-- Settles O14: the first read leaves the word as it was, and the second answers what already stands on the bus. -/
theorem repeatedReadsAgree : Obligations.RepeatedReadsAgree := by
  intro s s1 r d h hd hs h1
  rw [step_readData h hd, Host.Outcome.next.injEq] at hs
  subst hs
  exact ⟨rfl, step_readData h1 (by simpa using hd)⟩

end Sys2Proof.Machine
end

section
/-! SUPPORT. A table set built as the document describes (41_table_generator.md R83): the head of a shuffle, and a table
that holds every index. -/

namespace Sys2Proof

namespace CipherTablesRaw

theorem toNat_lt_of_mem_identitySequence {win : Nat} (hwin : win ≤ 128) {x : BitVec 7}
    (hx : x ∈ identitySequence win) : x.toNat < win := by
  obtain ⟨i, hi, rfl⟩ := List.mem_map.mp hx
  have hlt := List.mem_range.mp hi
  rw [BitVec.toNat_ofNat, Nat.mod_eq_of_lt (by omega)]
  exact hlt

theorem nodup_identitySequence {win : Nat} (hwin : win ≤ 128) : (identitySequence win).Nodup := by
  refine List.Nodup.map_on (fun a ha b hb hab => ?_) List.nodup_range
  have ha' := List.mem_range.mp ha
  have hb' := List.mem_range.mp hb
  have h := congrArg BitVec.toNat hab
  rwa [BitVec.toNat_ofNat, BitVec.toNat_ofNat, Nat.mod_eq_of_lt (by omega), Nat.mod_eq_of_lt (by omega)] at h

/-- The head of a shuffle of the identity sequence has its entries in range and pairwise distinct (R83, R85). -/
theorem wfCompression_of_shuffle {m win k : Nat} {T : Vector (BitVec 7) m} (hwin : win ≤ 128)
    (h : ∃ l : List (BitVec 7), l.Perm (identitySequence win) ∧ T.toList = l.take k) :
    wfCompression win T = true := by
  obtain ⟨l, hperm, hT⟩ := h
  have hlt : ∀ x ∈ l.take k, x.toNat < win := fun x hx =>
    toNat_lt_of_mem_identitySequence hwin (hperm.mem_iff.mp (List.mem_of_mem_take hx))
  have hnodup : (l.take k).Nodup := (hperm.nodup_iff.mpr (nodup_identitySequence hwin)).sublist (List.take_sublist k l)
  simpa [wfCompression, hT, hnodup] using hlt

/-- A permutation table of 64 entries that holds every index repeats none (R83, R89). -/
theorem wfPermutation_of_all_mem {T : Vector (BitVec 6) 64} (h : ∀ x : BitVec 6, x ∈ T.toList) :
    wfPermutation T = true := by
  have hsurj : Function.Surjective (fun j : Fin 64 => T[j].toFin) := fun y => by
    obtain ⟨j, hj, hy⟩ := List.mem_iff_getElem.mp (h (BitVec.ofFin y))
    exact ⟨⟨j, by simpa using hj⟩, by simpa using congrArg BitVec.toFin hy⟩
  have hinj := Finite.injective_iff_surjective.mpr hsurj
  exact (wfPermutation_iff T).mpr fun a b hab he => hab.ne (hinj (congrArg BitVec.toFin he))

/-- Settles O40: each check follows from what the construction says of its own table. -/
theorem documentedConstructionIsWellFormed : Obligations.DocumentedConstructionIsWellFormed := by
  rintro t ⟨h1, h2, h3, h4, hshift, hexp, hp1, hp2⟩
  exact (wf_iff t).mpr ⟨wfCompression_of_shuffle (by omega) h1, wfCompression_of_shuffle (by omega) h2,
    wfCompression_of_shuffle (by omega) h3, wfCompression_of_shuffle (by omega) h4,
    (wfShift_iff _).mpr fun r => by simpa using hshift r, (wfExp_iff _).mpr hexp,
    wfPermutation_of_all_mem hp1, wfPermutation_of_all_mem hp2⟩

end CipherTablesRaw

end Sys2Proof
end

section
/-! SUPPORT. The words of a register after a data word is stored (20_memory.md R45, R52, R55). -/

namespace Sys2Proof

namespace Bits

section SetWord

variable {n : Nat} (v : Bits n) (w : Nat) (d : Word)

/-- The word that was set, by position: positions beyond the length read 0 (R45). -/
theorem getMsbD_wordAt_setWordAt (t : Fin 32) :
    (wordAt (setWordAt v w d) w).getMsbD t = (decide (32 * w + t.val < n) && d.getMsbD t) := by
  have ht := t.isLt
  rw [getMsbD_wordAt]
  by_cases hin : 32 * w + t.val < n
  · rw [getMsbD_setWordAt v w d ⟨_, hin⟩, if_pos (by simp only; omega)]
    simp only [hin, decide_true, Bool.true_and]
    congr 1
    omega
  · rw [BitVec.getMsbD_of_ge _ _ (by omega)]
    simp [hin]

/-- A word that lies within the sequence reads as it was set (R45). -/
theorem wordAt_setWordAt_same (hw : 32 * (w + 1) ≤ n) : wordAt (setWordAt v w d) w = d :=
  ext fun t => by
    rw [getMsbD_wordAt_setWordAt, decide_eq_true (by omega), Bool.true_and]

/-- The other words keep their values (R55). -/
theorem wordAt_setWordAt_of_ne {w' : Nat} (hw : w' ≠ w) : wordAt (setWordAt v w d) w' = wordAt v w' :=
  ext fun t => by
    have ht := t.isLt
    rw [getMsbD_wordAt, getMsbD_wordAt]
    by_cases hin : 32 * w' + t.val < n
    · rw [getMsbD_setWordAt v w d ⟨_, hin⟩, if_neg (by simp only; omega)]
    · rw [BitVec.getMsbD_of_ge _ _ (by omega), BitVec.getMsbD_of_ge _ _ (by omega)]

end SetWord

/-- The last word of an 88-bit sequence keeps its reserved low byte 0 (R45). -/
theorem wordAt_setWordAt_two (v : Bits 88) (d : Word) : wordAt (setWordAt v 2 d) 2 = d &&& 0xFFFFFF00#32 := by
  have hmask : ∀ t : Fin 32, (0xFFFFFF00#32).getMsbD t = decide (32 * 2 + t.val < 88) := by decide
  refine ext fun t => ?_
  rw [getMsbD_wordAt_setWordAt, BitVec.getMsbD_and, hmask, Bool.and_comm]

end Bits

namespace Machine

/-- A data register word that the host may write: a word of SEED, KEY, DIN, FIN or FRK (R55). -/
def Reg.IsData (r : Reg) : Prop := r.writable = true ∧ r ≠ .ctrl ∧ r ≠ .status ∧ r ≠ .cmd

theorem Reg.isData_iff {r : Reg} : r.IsData ↔ r = .seedLo ∨ r = .seedHi ∨ (∃ w, r = .key w) ∨ (∃ w, r = .din w) ∨
    (∃ w, r = .fin w) ∨ (∃ w, r = .frk w) := by
  cases r <;> simp [Reg.IsData, Reg.writable]

section Store

variable {s : State} {r r' : Reg} {d : Word}

/-- A stored word reads as written, but for the reserved byte of FRK2 (R45, R55). -/
theorem readReg_storeWord_same (hr : r.IsData) :
    (s.storeWord r d).readReg r = some (if r = .frk 2 then d &&& 0xFFFFFF00#32 else d) := by
  rcases Reg.isData_iff.mp hr with rfl | rfl | ⟨w, rfl⟩ | ⟨w, rfl⟩ | ⟨w, rfl⟩ | ⟨w, rfl⟩
  · exact congrArg some (seedLow_joinSeed _ d)
  · exact congrArg some (seedHigh_joinSeed d _)
  · exact congrArg some (Bits.wordAt_setWordAt_same _ _ d (by omega))
  · exact congrArg some (Bits.wordAt_setWordAt_same _ _ d (by omega))
  · exact congrArg some (Bits.wordAt_setWordAt_same _ _ d (by omega))
  · by_cases hw : w = 2
    · subst hw
      exact congrArg some (Bits.wordAt_setWordAt_two s.frk d)
    · rw [if_neg (by simpa using hw)]
      exact congrArg some (Bits.wordAt_setWordAt_same _ _ d (by omega))

/-- Storing a word leaves every other register word (R52, R55). -/
theorem readReg_storeWord_of_ne (hne : r' ≠ r) : (s.storeWord r d).readReg r' = s.readReg r' := by
  have hword : ∀ {n m : Nat} (v : Bits n) {a b : Fin m}, a ≠ b →
      some (Bits.wordAt (Bits.setWordAt v b d) a) = some (Bits.wordAt v a) := fun v _ _ hab =>
    congrArg some (Bits.wordAt_setWordAt_of_ne v _ d (Fin.val_ne_of_ne hab))
  cases r with
  | seedLo =>
    cases r' with
    | seedLo => exact absurd rfl hne
    | seedHi => exact congrArg some (seedHigh_joinSeed _ d)
    | _ => rfl
  | seedHi =>
    cases r' with
    | seedLo => exact congrArg some (seedLow_joinSeed d _)
    | seedHi => exact absurd rfl hne
    | _ => rfl
  | key w =>
    cases r' with
    | key w' => exact hword s.key (by simpa using hne)
    | _ => rfl
  | din w =>
    cases r' with
    | din w' => exact hword s.din (by simpa using hne)
    | _ => rfl
  | fin w =>
    cases r' with
    | fin w' => exact hword s.fin (by simpa using hne)
    | _ => rfl
  | frk w =>
    cases r' with
    | frk w' => exact hword s.frk (by simpa using hne)
    | _ => rfl
  | _ => rfl

end Store

/-- Settles O13: the step stores the word, and a store reaches no other word and nothing beside the operands. -/
theorem idleDataWriteStoresOneWord : Obligations.IdleDataWriteStoresOneWord := by
  intro s r d h hb hr
  obtain ⟨hw, hctrl, hstatus, hcmd⟩ := Reg.isData_iff.mpr hr
  obtain ⟨hdout, hfout, hirq, hst, htm, hrkf, hpend, hwork, hdraws, hinputs, hresp⟩ :=
    State.storeWord_frame r d (s.popped.respond .ok)
  refine ⟨_, step_dataWrite h hb hw hctrl hstatus hcmd, hresp, hinputs, fun r' => ?_, hdout, hfout, hirq, hst, htm,
    hrkf, hpend, hwork, hdraws⟩
  by_cases hr' : r' = r
  · rw [if_pos hr', hr', readReg_storeWord_same (Reg.isData_iff.mpr hr)]
  · rw [if_neg hr', readReg_storeWord_of_ne hr', State.respond_readReg, State.popped_readReg]

end Machine

end Sys2Proof
end

section
/-! SUPPORT. The pseudo-instructions that load an operand (30_encoding.md R69, R73): its words, written one after another
to the register words of an idle block that make it up. -/

namespace Sys2Proof.Machine

/-- `put u` is an idle block with `u` in the register that the words `reg` make up, and the rest the same for every
`u` (R45). -/
structure Packs {n m : Nat} (reg : Fin m → Reg) (put : Bits n → State) : Prop where
  isData : ∀ w, (reg w).IsData
  idle : ∀ u, (put u).status.busy = false
  store : ∀ u w d, (put u).storeWord (reg w) d = put (Bits.setWordAt u w d)

theorem storeWord_withResponse (s : State) (b : Option BusResponse) (r : Reg) (d : Word) :
    ({ s with response := b } : State).storeWord r d = { s.storeWord r d with response := b } := by
  cases r <;> rfl

namespace Packs

variable {n m : Nat} {reg : Fin m → Reg} {put : Bits n → State}

/-- The step of the first of a program's writes to the words of a packed register, whatever the bus last answered. -/
theorem step_write (h : Packs reg put) (u : Bits n) (w : Fin m) (d : Word) (p : List Stmt)
    (b : Option BusResponse) :
    step { put u with inputs := programEvents (.wr (reg w).addr d :: p), response := b } =
      .next { put (Bits.setWordAt u w d) with inputs := programEvents p, response := some .ok } := by
  obtain ⟨hw, hctrl, hstatus, hcmd⟩ := h.isData w
  have hs := step_storeWord { put u with response := b } (reg w) d (programEvents p) hw hctrl hstatus hcmd (h.idle u)
  rw [storeWord_withResponse, h.store] at hs
  exact hs

/-- The words of `v` that a list names, written one after another, are stored (R55). -/
theorem stepsTo_writes (h : Packs reg put) (v : Bits n) (w : Fin m) (l : List (Fin m)) (u : Bits n)
    (b : Option BusResponse) :
    StepsTo (l.length + 1)
      { put u with
        inputs := programEvents ((w :: l).map fun w => .wr (reg w).addr (Bits.wordAt v w)), response := b }
      { put (Bits.setWords v (w :: l) u) with inputs := [], response := some .ok } := by
  induction l generalizing w u b with
  | nil => exact ⟨_, h.step_write u w _ _ b, rfl⟩
  | cons w' l ih => exact ⟨_, h.step_write u w _ _ b, ih w' _ _⟩

/-- All the words of `v`, written in order, leave `v` in the register (R69). -/
theorem stepsTo_load (h : Packs reg put) (hm0 : m ≠ 0) (hm : n ≤ 32 * m) (v u : Bits n) :
    StepsTo m
      { put u with inputs := programEvents ((List.finRange m).map fun w => .wr (reg w).addr (Bits.wordAt v w)) }
      { put v with inputs := [], response := some .ok } := by
  cases hl : List.finRange m with
  | nil => exact absurd (List.finRange_eq_nil_iff.mp hl) hm0
  | cons w l =>
    have hlen : l.length + 1 = m := by rw [← List.length_cons, ← hl, List.length_finRange]
    have hrun := h.stepsTo_writes v w l u (put u).response
    rwa [hlen, ← hl, Bits.setWords_finRange hm, hl] at hrun

end Packs

/-- SETSEED's two writes, SEED_LO first (R46, R69). -/
theorem stepsTo_setSeed {s : State} (hb : s.status.busy = false) (x : Seed) :
    StepsTo 2 { s with inputs := programEvents (Pseudo.setSeed x).expand }
      { s with inputs := [], response := some .ok, seed := x } := by
  have hlow := step_storeWord s .seedLo (seedLow x) (programEvents [.wr (Reg.seedHi).addr (seedHigh x)]) rfl nofun
    nofun nofun hb
  have hhigh := step_storeWord { s.storeWord .seedLo (seedLow x) with response := some .ok } .seedHi (seedHigh x) [] rfl
    nofun nofun nofun hb
  refine ⟨_, hlow, _, hhigh, ?_⟩
  simp [StepsTo, State.storeWord]

/-- Settles O59: each of the four packed registers is stored word by word, and the seed by its two halves. -/
theorem operandLoadsStoreOperands : Obligations.OperandLoadsStoreOperands := by
  intro s hb
  have hkey : Packs Reg.key fun u => { s with key := u } :=
    ⟨fun _ => ⟨rfl, nofun, nofun, nofun⟩, fun _ => hb, fun _ _ _ => rfl⟩
  have hfin : Packs Reg.fin fun u => { s with fin := u } :=
    ⟨fun _ => ⟨rfl, nofun, nofun, nofun⟩, fun _ => hb, fun _ _ _ => rfl⟩
  have hfrk : Packs Reg.frk fun u => { s with frk := u } :=
    ⟨fun _ => ⟨rfl, nofun, nofun, nofun⟩, fun _ => hb, fun _ _ _ => rfl⟩
  exact ⟨fun v => hkey.stepsTo_load (by omega) (by omega) v s.key, fun v => stepsTo_ldDin [] v hb,
    fun v => hfin.stepsTo_load (by omega) (by omega) v s.fin,
    fun v => hfrk.stepsTo_load (by omega) (by omega) v s.frk, fun x => stepsTo_setSeed hb x⟩

end Sys2Proof.Machine
end
